-- ==== Sys2Proof/Word.lean ====
section
/-! DEFINITION. The word types of RLWE-CORE: the 32-bit word of every register, RAM word and command (R30, R85, R110),
the byte a byte bridge sees (R83), and the 4-bit bank field (R111, R116). -/

namespace Sys2Proof

/-- A 32-bit register, RAM word, command word or entropy word. -/
abbrev Word := BitVec 32

/-- One byte of the host window, as a byte bridge exposes it (R83). -/
abbrev Byte := BitVec 8

/-- A bank field of a command word: a 4-bit unsigned index, zero-extended (R116). -/
abbrev BankIx := BitVec 4

end Sys2Proof
end

