-- ==== Sys2Proof/Config.lean ====
section
/-! DEFINITION. What a build of RLWE-CORE fixes: the build parameters (R5), which the machine carries as plain data so that
every statement holds for every build, the two fixed sizes CDT_MAX and the host window's (R5, R81), and the reset value of CFG_N
(R41). -/

namespace Sys2Proof

/-- The build parameters of R5 and the window's base of R81. NMAX is a power of two, so its logarithm is kept. -/
structure Build where
  /-- log2 of NMAX, the bank depth in words. -/
  log2Nmax : Nat
  /-- NB, the number of polynomial banks. -/
  nb : Nat
  /-- ENT_DEPTH, the entropy FIFO depth in words. -/
  entDepth : Nat
  /-- BASE, the byte address at which the platform places the host window. -/
  base : Nat
deriving DecidableEq, Repr

/-- NMAX, the bank depth in 32-bit words (R5). -/
def Build.nmax (b : Build) : Nat := 2 ^ b.log2Nmax

/-- The reference build: NMAX = 1024, NB = 8, ENT_DEPTH = 16 (R5).
DESIGN CHOICE: BASE, which the spec leaves to the platform, is 0 here (unsafe; log entry 2). -/
def Build.reference : Build := { log2Nmax := 10, nb := 8, entDepth := 16, base := 0 }

/-- CDT_MAX, fixed at 64 (R5). -/
def cdtMax : Nat := 64

/-- The size in bytes of the host window, 256 KiB (R81). -/
def windowSize : Nat := 2 ^ 18

/-- The reset value of CFG_N, min(1024, NMAX) (R41). -/
def Build.resetN (b : Build) : Word := BitVec.ofNat 32 (min 1024 b.nmax)

end Sys2Proof
end

