-- ==== Sys2Proof/Syntax.lean ====
section
/-! DEFINITION. The commands of RLWE-CORE, one constructor per row of the opcode map (R113), each with the bank fields of its
operand form (R112): Z none, D the destination, DA destination and first source, DAB destination and both sources. -/

namespace Sys2Proof

/-- A decoded command. The fields are the raw 4-bit bank fields RD, RA and RB of the command word (R111); whether the build
has such a bank is `Instr.wf`'s question. -/
inductive Instr where
  /-- Form Z: completes and does nothing else (R140). -/
  | nop
  /-- Form DAB: coefficient-wise sum (R142). -/
  | add (rd ra rb : BankIx)
  /-- Form DA: additive inverse (R143). -/
  | neg (rd ra : BankIx)
  /-- Form DAB: product modulo x^N + 1 and Q (R144). -/
  | mul (rd ra rb : BankIx)
  /-- Form DA: coefficients mod Q, read unsigned (R150). -/
  | redq (rd ra : BankIx)
  /-- Form DA: coefficients mod Q, read signed (R152). -/
  | redqs (rd ra : BankIx)
  /-- Form DAB: one fold through x^N + 1, low half in ra and high half in rb (R155). -/
  | ridl (rd ra rb : BankIx)
  /-- Form DA: copy of raw words (R161). -/
  | mov (rd ra : BankIx)
  /-- Form D: the zero polynomial (R163). -/
  | clr (rd : BankIx)
  /-- Form D: rounded fixed-point Gaussian samples (R183). -/
  | gsmp (rd : BankIx)
  /-- Form D: Gaussian samples by table lookup (R190). -/
  | gcdt (rd : BankIx)
  /-- Form D: the uniform base (R192). -/
  | unif (rd : BankIx)
  /-- Form DAB: reconciliation bits of the shared value ra under the reference key rb (R210). -/
  | recon (rd ra rb : BankIx)
deriving DecidableEq, Repr

end Sys2Proof
end

