-- ==== Sys2Proof/Decode.lean ====
section
/-! DEFINITION. The command word: its fields and operand forms (R110–R112), the opcode map (R113), the decoder with its two
rejections (R114, R115), and the encoder (R123). -/

namespace Sys2Proof

/-- The four operand forms of R112. -/
inductive Form where
  | z | d | da | dab
deriving DecidableEq, Repr

/-- The thirteen opcodes of R113, by name. -/
inductive Opcode where
  | nop | add | neg | mul | redq | redqs | ridl | mov | clr | gsmp | gcdt | unif | recon
deriving DecidableEq, Repr

/-- Why a word is no command. -/
inductive DecodeError where
  /-- OPC is not in the opcode map (R115); acceptance reports ERR_OPCODE. -/
  | undefinedOpcode
  /-- OPC is in the map, but a bit outside the form's fields is 1 (R114); acceptance reports ERR_RSVD. -/
  | reservedBits
deriving DecidableEq, Repr

/-- The OPC value of each opcode (R113). -/
def Opcode.code : Opcode → BitVec 8
  | .nop => 0x00
  | .add => 0x01
  | .neg => 0x02
  | .mul => 0x03
  | .redq => 0x04
  | .redqs => 0x05
  | .ridl => 0x06
  | .mov => 0x07
  | .clr => 0x08
  | .gsmp => 0x10
  | .gcdt => 0x11
  | .unif => 0x12
  | .recon => 0x20

/-- The operand form of each opcode (R113). -/
def Opcode.form : Opcode → Form
  | .nop => .z
  | .add => .dab
  | .neg => .da
  | .mul => .dab
  | .redq => .da
  | .redqs => .da
  | .ridl => .dab
  | .mov => .da
  | .clr => .d
  | .gsmp => .d
  | .gcdt => .d
  | .unif => .d
  | .recon => .dab

/-- The opcode an OPC value stands for; none for the values R115 calls undefined. -/
def Opcode.ofCode? (c : BitVec 8) : Option Opcode :=
  match c.toNat with
  | 0x00 => some .nop
  | 0x01 => some .add
  | 0x02 => some .neg
  | 0x03 => some .mul
  | 0x04 => some .redq
  | 0x05 => some .redqs
  | 0x06 => some .ridl
  | 0x07 => some .mov
  | 0x08 => some .clr
  | 0x10 => some .gsmp
  | 0x11 => some .gcdt
  | 0x12 => some .unif
  | 0x20 => some .recon
  | _ => none

/-- The bits that select a command of this form: OPC, and every bit its form does not use (R113). -/
def Form.mask : Form → Word
  | .z => 0xFFFFFFFF
  | .d => 0xFFFFF0FF
  | .da => 0xFFFF00FF
  | .dab => 0xFFF000FF

/-- The mask column of R113. -/
def Opcode.mask (op : Opcode) : Word := op.form.mask

/-- The match column of R113: OPC in bits [7:0] and zeros above. -/
def Opcode.matchWord (op : Opcode) : Word := op.code.setWidth 32

/-- OPC, bits [7:0] (R111). -/
def fieldOpc (w : Word) : BitVec 8 := w.extractLsb' 0 8

/-- RD, bits [11:8] (R111). -/
def fieldRd (w : Word) : BankIx := w.extractLsb' 8 4

/-- RA, bits [15:12] (R111). -/
def fieldRa (w : Word) : BankIx := w.extractLsb' 12 4

/-- RB, bits [19:16] (R111). -/
def fieldRb (w : Word) : BankIx := w.extractLsb' 16 4

/-- The command of an opcode with the fields its form uses. -/
def Opcode.instr (op : Opcode) (rd ra rb : BankIx) : Instr :=
  match op with
  | .nop => .nop
  | .add => .add rd ra rb
  | .neg => .neg rd ra
  | .mul => .mul rd ra rb
  | .redq => .redq rd ra
  | .redqs => .redqs rd ra
  | .ridl => .ridl rd ra rb
  | .mov => .mov rd ra
  | .clr => .clr rd
  | .gsmp => .gsmp rd
  | .gcdt => .gcdt rd
  | .unif => .unif rd
  | .recon => .recon rd ra rb

/-- The opcode of a command. -/
def Instr.opcode : Instr → Opcode
  | .nop => .nop
  | .add .. => .add
  | .neg .. => .neg
  | .mul .. => .mul
  | .redq .. => .redq
  | .redqs .. => .redqs
  | .ridl .. => .ridl
  | .mov .. => .mov
  | .clr .. => .clr
  | .gsmp .. => .gsmp
  | .gcdt .. => .gcdt
  | .unif .. => .unif
  | .recon .. => .recon

/-- Reads a command word: total on every word, one word always (R110). The order of the two rejections is acceptance's
(R120): the opcode first, then the bits outside the form's fields. -/
def decode (w : Word) : Except DecodeError Instr :=
  match Opcode.ofCode? (fieldOpc w) with
  | none => .error .undefinedOpcode
  | some op =>
    if w &&& op.mask = op.matchWord then .ok (op.instr (fieldRd w) (fieldRa w) (fieldRb w))
    else .error .reservedBits

/-- OPC | RD<<8 | RA<<12 | RB<<16 (R123). -/
def encodeFields (op : Opcode) (rd ra rb : BankIx) : Word :=
  op.code.setWidth 32 ||| (rd.setWidth 32 <<< 8) ||| (ra.setWidth 32 <<< 12) ||| (rb.setWidth 32 <<< 16)

/-- The command word of a command, unused fields 0 (R123). -/
def encode : Instr → Word
  | .nop => encodeFields .nop 0 0 0
  | .add rd ra rb => encodeFields .add rd ra rb
  | .neg rd ra => encodeFields .neg rd ra 0
  | .mul rd ra rb => encodeFields .mul rd ra rb
  | .redq rd ra => encodeFields .redq rd ra 0
  | .redqs rd ra => encodeFields .redqs rd ra 0
  | .ridl rd ra rb => encodeFields .ridl rd ra rb
  | .mov rd ra => encodeFields .mov rd ra 0
  | .clr rd => encodeFields .clr rd 0 0
  | .gsmp rd => encodeFields .gsmp rd 0 0
  | .gcdt rd => encodeFields .gcdt rd 0 0
  | .unif rd => encodeFields .unif rd 0 0
  | .recon rd ra rb => encodeFields .recon rd ra rb

/-- The command the decoder reads from a table row's bits. A command is always one 32-bit word (R110), so bits above bit 31
are no part of it. -/
def decodeTableWord (nbits w : Nat) : Option Instr :=
  if nbits ≤ 32 then
    match decode (BitVec.ofNat 32 (w % 2 ^ nbits)) with
    | .ok i => some i
    | .error _ => none
  else none

end Sys2Proof
end

