-- ==== Sys2Proof/Machine/AddressMap.lean ====
section
/-! DEFINITION. The address map of the host window: the places of the registers, the CDT table and the bank words (R84), the
offset of CMD (R48), and the constant the ID register reads as (R37). -/

namespace Sys2Proof

/-- The first byte offset past the control and status registers (R84). -/
def csrEnd : Nat := 0x40

/-- The byte offset of CDT[0] (R84). -/
def cdtBase : Nat := 0x100

/-- The byte offset of word 0 of bank 0 (R84). -/
def bankBase : Nat := 0x10000

/-- The byte offset of the CMD register, to which the host writes a command word (R48). -/
def cmdOffset : Nat := 0x010

/-- The constant that the ID register reads as, the bytes "RLWE" (R37). -/
def idWord : Word := 0x524C5745

/-- The byte offset of word `i` of bank `f` (R84). -/
def Build.bankOffset (b : Build) (f : BankIx) (i : Nat) : Nat :=
  bankBase + 4 * (f.toNat * b.nmax + i)

/-- The byte offset of CDT[j] (R84). -/
def cdtOffsetOf (j : Nat) : Nat := cdtBase + 4 * j

/-- Whether a byte offset lies in the CDT table or in the bank window of this build (R84). -/
def Build.isRam (b : Build) (off : Nat) : Bool :=
  (cdtBase ≤ off && off < cdtBase + 4 * cdtMax) ||
    (bankBase ≤ off && off < bankBase + 4 * (b.nb * b.nmax))

end Sys2Proof
end

