-- ==== Sys2Proof/WellFormed.lean ====
section
/-! DEFINITION. Which commands name only banks the build has (R116), and which build parameters are legal (R5). -/

namespace Sys2Proof

/-- The bank fields a command's form uses, in the order RD, RA, RB in which acceptance checks them (R112, R120). -/
def Instr.banks : Instr → List BankIx
  | .nop => []
  | .add rd ra rb => [rd, ra, rb]
  | .neg rd ra => [rd, ra]
  | .mul rd ra rb => [rd, ra, rb]
  | .redq rd ra => [rd, ra]
  | .redqs rd ra => [rd, ra]
  | .ridl rd ra rb => [rd, ra, rb]
  | .mov rd ra => [rd, ra]
  | .clr rd => [rd]
  | .gsmp rd => [rd]
  | .gcdt rd => [rd]
  | .unif rd => [rd]
  | .recon rd ra rb => [rd, ra, rb]

/-- Every bank field the command's form uses names a bank of a build with `nb` banks (R116). -/
def Instr.wf (nb : Nat) (i : Instr) : Bool := i.banks.all fun f => f.toNat < nb

/-- The ranges of R5 for NMAX, NB and ENT_DEPTH, the limit NB × NMAX ≤ 32768 of the bank window, and BASE's alignment of
R81. -/
abbrev Build.Legal (b : Build) : Prop :=
  b.log2Nmax ≤ 14 ∧ (2 ≤ b.nb ∧ b.nb ≤ 16) ∧ (1 ≤ b.entDepth ∧ b.entDepth ≤ 255) ∧
    b.nb * b.nmax ≤ 32768 ∧ b.base % windowSize = 0

end Sys2Proof
end

