-- ==== Sys2Proof/Machine/State.lean ====
section
/-! DEFINITION. The state of RLWE-CORE as plain data: the RAM words of the window (R30, R33, R35), the entropy FIFO (R36),
every control and status register (R37–R52), the sequencer (R57), the entropy port (R80), and the schedule that says which
agent moves next (R9, R92); the reasons a step can stop (R235); and the state after reset (R64, R273). -/

namespace Sys2Proof.Machine

/-- The RAM words of the host window that something has written, as bytes in the order of R83, keyed by byte offset from BASE.
A word's written bit (R33) is set exactly when its four bytes are listed, so an unlisted byte reads as no value. -/
abbrev Memory := List Host.Cell

/-- The canonical form: addresses strictly rise. An unlisted byte reads as no value, so no entry can repeat it. -/
abbrev Memory.wf (m : Memory) : Prop := m.Pairwise (fun x y => x.1 < y.1)

/-- The architected errors of R230. -/
inductive ErrCode where
  /-- ERR_CFG, code 1: an invalid configuration at acceptance (R53, R54). -/
  | cfg
  /-- ERR_OPCODE, code 2: OPC is not in the opcode map (R115). -/
  | opcode
  /-- ERR_BANK, code 3: a used bank field is at or above NB (R116). -/
  | bank
  /-- ERR_BUSY, code 4: a CMD write while a command is in flight. -/
  | busy
  /-- ERR_RSVD, code 5: a bit outside the form's fields is 1 (R114). -/
  | rsvd
  /-- ERR_HOSTACC, code 6: a host access to a RAM word while BUSY (R236). -/
  | hostAcc
  /-- ERR_ENT_OVF, code 7: a push to a full FIFO (R237). -/
  | entOvf
deriving DecidableEq, Repr

/-- The copy of the configuration registers taken at acceptance (R58). -/
structure Snapshot where
  n : Word
  q : Word
  frac : BitVec 5
  gmu : Word
  gsigma : Word
  cdtLen : BitVec 7
  cdtOffset : Word
  entSel : Bool
deriving DecidableEq, Repr

/-- The progress of a sampler command (R57): the coefficients of S produced so far, coefficient 0 first, so that prog.i is
their number; and the pending low word of a two-word UNIF attempt (R193). -/
structure Progress where
  scratch : List Word
  pending : Option Word
deriving DecidableEq, Repr

/-- The sequencer state SEQ (R57). The accepted word w is held as the command it decodes to; `encode` gives w back. -/
inductive Seq where
  | idle
  | run (cmd : Instr) (snap : Snapshot) (prog : Progress)
deriving DecidableEq, Repr

/-- One move of one agent (R9). A list of them is a schedule: the total order of R92, in which host accesses, sequencer steps,
entropy offers and resets may interleave in any way. -/
inductive Input where
  /-- The host reads `size` bytes at the byte address `addr` (R86). -/
  | read (addr size : Nat)
  /-- The host writes `data` as `size` bytes at the byte address `addr` (R87). -/
  | write (addr size : Nat) (data : Word)
  /-- The sequencer takes the step it has enabled, if it has one (R60). -/
  | sequencer
  /-- The entropy source offers this word on the port from now on, or nothing (R98). -/
  | entropy (offer : Option Word)
  /-- rst_n is asserted and released (R270, R271). -/
  | hardReset
deriving DecidableEq, Repr

/-- The machine. -/
structure State where
  /-- The build parameters (R5); no step changes them. -/
  build : Build
  /-- CDT words and bank words that have been written (R30, R33, R35). -/
  ram : Memory
  /-- The entropy FIFO, head first (R36). -/
  fifo : List Word
  /-- CTRL.IE_DONE (R39). -/
  ieDone : Bool
  /-- CTRL.IE_ERR (R39). -/
  ieErr : Bool
  /-- CTRL.ENT_SEL: false is the FIFO, true the external port (R39). -/
  entSel : Bool
  /-- STATUS.DONE (R40). -/
  done : Bool
  /-- STATUS.ERR (R40). -/
  err : Bool
  /-- CMD, the last accepted command word (R48). -/
  cmd : Word
  /-- ERRCODE, bits [3:0] (R49). -/
  errCode : BitVec 4
  /-- ERRINFO (R50). -/
  errInfo : Word
  /-- CFG_N (R41). -/
  cfgN : Word
  /-- CFG_Q (R42). -/
  cfgQ : Word
  /-- GCFG.FRAC (R43). -/
  frac : BitVec 5
  /-- GMU (R44). -/
  gmu : Word
  /-- GSIGMA (R45). -/
  gsigma : Word
  /-- CDT_LEN, bits [6:0] (R46). -/
  cdtLen : BitVec 7
  /-- CDT_OFFSET (R47). -/
  cdtOffset : Word
  /-- SEQ (R57). -/
  seq : Seq
  /-- What the entropy port offers now: ent_data while ent_valid is 1, nothing while it is 0 (R80, R98). -/
  entPort : Option Word
  /-- bus_rdata as the host last took it: the word the last completed host read returned (R80, R86). The model's own record
  of an output; nothing reads it back. -/
  rdata : Option Word
  /-- The moves of the agents still to come, the next one first. The model's own field: it stands for the order of R92. -/
  inputs : List Input
deriving DecidableEq, Repr

/-- Why the machine stops with a model fault. -/
inductive Fault where
  /-- A host read, or a command's source read, of a RAM word whose written bit is clear (R33, R235). Raised by the bus read and
  by every command that reads a bank or the CDT. Safe: the hardware goes on with an unspecified word. -/
  | unwrittenRam
  /-- A host access to an address outside the 256 KiB window (R81), where the block has nothing. Raised by the bus. Safe. -/
  | outsideWindow
deriving DecidableEq, Repr

/-- Why the model has no step. -/
inductive Refusal where
  /-- The instruction has no meaning yet. Raised by no arm of this model. Safe. -/
  | notModelled (mnemonic : String)
  /-- A host access that is not one 32-bit word at a multiple of 4 from BASE (R82, R235). Raised by the bus. Safe: the
  block's port cannot express it. -/
  | notOneWord
deriving DecidableEq, Repr

/-- The state right after hard reset of a build (R64, R270, R273), with no schedule, no word on the entropy port and no read
completed. -/
def State.resetOf (b : Build) : State where
  build := b
  ram := []
  fifo := []
  ieDone := false
  ieErr := false
  entSel := false
  done := false
  err := false
  cmd := 0
  errCode := 0
  errInfo := 0
  cfgN := b.resetN
  cfgQ := 0xFFFFFFFF
  frac := 0x10
  gmu := 0
  gsigma := 0x00010000
  cdtLen := 0
  cdtOffset := 0
  seq := .idle
  entPort := none
  rdata := none
  inputs := []

/-- The machine right after reset, in the reference build (R5, R64). -/
def State.reset : State := State.resetOf Build.reference

end Sys2Proof.Machine
end

