-- ==== Sys2Proof/Machine/Flags.lean ====
section
/-! DEFINITION. The status bits and output lines, each a function of the state: ring validity and CFG_VALID (R53), BUSY (R61),
ENT_WAIT (R62), the STATUS word (R40), irq (R245) and ent_ready (R80). There are no arithmetic flags (R56). -/

namespace Sys2Proof.Machine

/-- ring_valid(n, q): n is a power of two from 1 to NMAX, q is odd and at least 3 (R53). -/
def ringValid (b : Build) (n q : Word) : Bool :=
  (List.range (b.log2Nmax + 1)).any (fun k => n.toNat == 2 ^ k) && q.toNat % 2 == 1 && 3 ≤ q.toNat

/-- STATUS.CFG_VALID, live (R53). -/
def State.cfgValid (s : State) : Bool := ringValid s.build s.cfgN s.cfgQ

/-- STATUS.BUSY: SEQ is not Idle (R61). -/
def State.busy (s : State) : Bool :=
  match s.seq with
  | .idle => false
  | .run .. => true

/-- The commands that draw entropy (R60). -/
def isSampler : Instr → Bool
  | .gsmp _ => true
  | .gcdt _ => true
  | .unif _ => true
  | _ => false

/-- The word the source that `sel` selects offers now: the FIFO's head, or the port's word (R62, R180). -/
def State.offered (s : State) (sel : Bool) : Option Word :=
  if sel then s.entPort else s.fifo.head?

/-- Whether the sequencer runs a sampler command that still has coefficients to produce. -/
def State.drawing (s : State) : Bool :=
  match s.seq with
  | .idle => false
  | .run i snap prog => isSampler i && prog.scratch.length < snap.n.toNat

/-- Whether the running command draws from the external port: snap.ENT_SEL. -/
def State.portSelected (s : State) : Bool :=
  match s.seq with
  | .idle => false
  | .run _ snap _ => snap.entSel

/-- STATUS.ENT_WAIT: a sampler command needs a word that its source does not now offer (R62). -/
def State.entWait (s : State) : Bool := s.drawing && (s.offered s.portSelected).isNone

/-- ent_ready: a sampler command with snap.ENT_SEL = 1 runs and needs a word (R80). -/
def State.entReady (s : State) : Bool := s.drawing && s.portSelected

/-- irq, a level (R245). -/
def State.irq (s : State) : Bool := (s.done && s.ieDone) || (s.err && s.ieErr)

/-- A register word with the given bits in positions 0, 1, 2, … and zeros above. -/
def wordOfBits (bits : List Bool) : Word := BitVec.ofNat 32 (bits.foldr (fun b n => b.toNat + 2 * n) 0)

/-- What a read of STATUS returns: BUSY, DONE, ERR, CFG_VALID, ENT_WAIT in bits 0 to 4 (R40). -/
def State.statusWord (s : State) : Word := wordOfBits [s.busy, s.done, s.err, s.cfgValid, s.entWait]

/-- What a read of CTRL returns: IE_DONE, IE_ERR, ENT_SEL in bits 0 to 2; SOFT_RESET and ENT_FLUSH read 0 (R39). -/
def State.ctrlWord (s : State) : Word := wordOfBits [s.ieDone, s.ieErr, s.entSel]

/-- What a read of CAPS returns (R38). -/
def capsWord (b : Build) : Word :=
  BitVec.ofNat 8 cdtMax ++ BitVec.ofNat 8 b.entDepth ++ (0 : BitVec 3) ++ BitVec.ofNat 5 b.nb ++ (0 : BitVec 3) ++
    BitVec.ofNat 5 b.log2Nmax

end Sys2Proof.Machine
end

