-- ==== Sys2Proof/Machine/Ops.lean ====
section
/-! DEFINITION. The named operations of the machine: reading and writing RAM (R33, R83), raising an architected error (R231)
and acknowledging it (R241), accepting a command (R120, R121), committing a result (R59, R60), drawing entropy (R180), pushing
it (R51), and the two resets (R270, R272). -/

namespace Sys2Proof.Machine

/-! ### RAM -/

/-- The byte at an offset, none if nothing has written it (R33). -/
def Memory.byte? (m : List Host.Cell) (a : Nat) : Option Byte :=
  match m with
  | [] => none
  | (k, v) :: rest => if k = a then some v else Memory.byte? rest a

/-- The word at a byte offset, little-endian (R83); none if its written bit is clear (R33). -/
def Memory.word? (m : Memory) (off : Nat) : Option Word :=
  match Memory.byte? m off, Memory.byte? m (off + 1), Memory.byte? m (off + 2), Memory.byte? m (off + 3) with
  | some b0, some b1, some b2, some b3 => some (b3 ++ b2 ++ b1 ++ b0)
  | _, _, _, _ => none

/-- The `count` words from a byte offset on; none if the written bit of any of them is clear. -/
def Memory.words? (m : Memory) (off : Nat) : Nat → Option (List Word)
  | 0 => some []
  | count + 1 =>
    match Memory.word? m off, Memory.words? m (off + 4) count with
    | some w, some ws => some (w :: ws)
    | _, _ => none

/-- The four bytes of a word, lowest address first (R83). -/
def wordBytes (w : Word) : List Byte :=
  [w.extractLsb' 0 8, w.extractLsb' 8 8, w.extractLsb' 16 8, w.extractLsb' 24 8]

/-- Bytes at consecutive offsets. -/
def cellsFrom (off : Nat) : List Byte → List Host.Cell
  | [] => []
  | b :: bs => (off, b) :: cellsFrom (off + 1) bs

/-- Writes consecutive bytes from an offset on and sets their words' written bits (R33, R59, R87). -/
def Memory.store (m : Memory) (off : Nat) (bytes : List Byte) : Memory :=
  m.filter (fun c => c.1 < off) ++ cellsFrom off bytes ++ m.filter (fun c => off + bytes.length ≤ c.1)

/-- Writes consecutive words from a byte offset on. -/
def Memory.storeWords (m : Memory) (off : Nat) (ws : List Word) : Memory := m.store off (ws.flatMap wordBytes)

/-! ### Errors -/

/-- The code ERRCODE records (R230). -/
def ErrCode.code : ErrCode → BitVec 4
  | .cfg => 1
  | .opcode => 2
  | .bank => 3
  | .busy => 4
  | .rsvd => 5
  | .hostAcc => 6
  | .entOvf => 7

/-- raise Error(code, info): the first error since ERR was last 0 is recorded, ERR is set, and nothing else changes (R231).
This is all that taking an error is: no context is saved and no control is redirected (R240). -/
def State.raiseError (s : State) (c : ErrCode) (info : Word) : State :=
  { s with
    errCode := if s.err then s.errCode else c.code
    errInfo := if s.err then s.errInfo else info
    err := true }

/-- A write to STATUS: bit 1 clears DONE; bit 2 clears ERR, ERRCODE and ERRINFO together (R40, R241). Acknowledging is all that
returning from an error is. -/
def State.acknowledge (s : State) (v : Word) : State :=
  { s with
    done := s.done && !v.getLsbD 1
    err := s.err && !v.getLsbD 2
    errCode := if v.getLsbD 2 then 0 else s.errCode
    errInfo := if v.getLsbD 2 then 0 else s.errInfo }

/-! ### Commands -/

/-- The copy of the configuration that acceptance takes (R58). -/
def State.snapshot (s : State) : Snapshot where
  n := s.cfgN
  q := s.cfgQ
  frac := s.frac
  gmu := s.gmu
  gsigma := s.gsigma
  cdtLen := s.cdtLen
  cdtOffset := s.cdtOffset
  entSel := s.entSel

/-- No coefficient produced and no pending word (R121). -/
def Progress.start : Progress := { scratch := [], pending := none }

/-- accept(w): CMD holds the word and the sequencer runs it under a fresh snapshot; DONE stays as it is (R121). -/
def State.accept (s : State) (i : Instr) : State :=
  { s with
    cmd := encode i
    seq := .run i s.snapshot Progress.start }

/-- The checks of R120 that follow decoding, on an idle block: the configuration first, then the bank fields the form uses;
the first that fails raises its error, and otherwise the command is accepted. -/
def State.submit (s : State) (i : Instr) (cfgOk : Bool) : State :=
  if cfgOk then
    if i.wf s.build.nb then s.accept i else s.raiseError .bank (encode i)
  else s.raiseError .cfg (encode i)

/-- The end of every command: SEQ becomes Idle and STATUS.DONE is set (R60). -/
def State.complete (s : State) : State :=
  { s with
    seq := .idle
    done := true }

/-- The commit: words 0, 1, … of bank rd become S in the step that completes the command (R59, R60). -/
def State.commit (s : State) (rd : BankIx) (scratch : List Word) : State :=
  { s with
    ram := s.ram.storeWords (s.build.bankOffset rd 0) scratch
    seq := .idle
    done := true }

/-- A command in both phases of its life. On an idle block it is the CMD write that submits it, with the configuration check
`cfgOk`. On a running block it is the sequencer's next step, `body`, under the snapshot. -/
def State.command (s : State) (i : Instr) (cfgOk : Bool)
    (body : Snapshot → Progress → Host.Outcome State Fault Refusal) : Host.Outcome State Fault Refusal :=
  match s.seq with
  | .idle => .next (s.submit i cfgOk)
  | .run _ snap prog => body snap prog

/-! ### Entropy -/

/-- EntDraw(): the word the selected source offers, and the state in which that source has let go of it (R99, R180). -/
def State.draw? (s : State) (sel : Bool) : Option (Word × State) :=
  match s.offered sel with
  | none => none
  | some u => some (u, if sel then { s with entPort := none } else { s with fifo := s.fifo.tail })

/-- A write to ENT_PUSH: appended if the FIFO has room, else dropped with ERR_ENT_OVF (R51, R237). -/
def State.push (s : State) (w : Word) : State :=
  if s.fifo.length < s.build.entDepth then { s with fifo := s.fifo ++ [w] } else s.raiseError .entOvf w

/-- The next sequencer step of a sampler command (R60): a Draw while coefficients are missing and a word is offered, no step
while none is offered (R181), and the commit once there are N. A draw answers none where it reads an unwritten word. -/
def State.samplerStep (s : State) (i : Instr) (rd : BankIx) (snap : Snapshot) (prog : Progress)
    (draw : Word → Option Progress) : Host.Outcome State Fault Refusal :=
  if prog.scratch.length < snap.n.toNat then
    match s.draw? snap.entSel with
    | none => .next s
    | some (u, s') =>
      match draw u with
      | none => .fault .unwrittenRam
      | some prog' => .next { s' with seq := .run i snap prog' }
  else if prog.scratch.length = snap.n.toNat then .next (s.commit rd prog.scratch)
  else .next s

/-! ### Resets -/

/-- Soft reset: every register to its reset value, the FIFO emptied, the command abandoned without a commit; RAM and written
bits stay (R272). The other agents' moves and the port's offer are not the block's. -/
def State.softReset (s : State) : State :=
  { s with
    fifo := []
    ieDone := false
    ieErr := false
    entSel := false
    done := false
    err := false
    cmd := 0
    errCode := 0
    errInfo := 0
    cfgN := s.build.resetN
    cfgQ := 0xFFFFFFFF
    frac := 0x10
    gmu := 0
    gsigma := 0x00010000
    cdtLen := 0
    cdtOffset := 0
    seq := .idle }

/-- Hard reset in one step (R270, R271): the reset state of the same build. What the entropy port offers stays with its source
(R274), and so do the moves still to come. -/
def State.hardReset (s : State) : State :=
  { State.resetOf s.build with
    entPort := s.entPort
    inputs := s.inputs }

end Sys2Proof.Machine
end

