-- ==== Sys2Proof/Machine/Operands.lean ====
section
/-! DEFINITION. How a command reads its source banks: raw words (R161), residues (R116), signed words (R152); the floor-modulo
residue every result is reduced by (R13); and the lane-wise command shapes (R165). -/

namespace Sys2Proof.Machine

/-- a mod Q for any integer a: the floor-modulo residue in [0, Q), as a word (R13). -/
def modQ (q : Word) (a : Int) : Word := BitVec.ofNat 32 (a % (q.toNat : Int)).toNat

/-- res(w), the residue of a word read unsigned (R12, R116). -/
def res (q w : Word) : Nat := w.toNat % q.toNat

/-- Word i of bank f; none if its written bit is clear (R33). -/
def State.bankWord? (s : State) (f : BankIx) (i : Nat) : Option Word := s.ram.word? (s.build.bankOffset f i)

/-- Words 0 to n − 1 of bank f; none if the written bit of any of them is clear (R32, R33). -/
def State.bank? (s : State) (f : BankIx) (n : Nat) : Option (List Word) := s.ram.words? (s.build.bankOffset f 0) n

/-- CDT[0] to CDT[l − 1]; none if the written bit of any of them is clear (R33, R190). -/
def State.cdt? (s : State) (l : Nat) : Option (List Word) := s.ram.words? (cdtOffsetOf 0) l

/-- A command that commits a function of bank ra's words, or faults on an unwritten one (R33, R59). -/
def State.unary (s : State) (rd ra : BankIx) (snap : Snapshot) (f : List Word → List Word) :
    Host.Outcome State Fault Refusal :=
  match s.bank? ra snap.n.toNat with
  | some a => .next (s.commit rd (f a))
  | none => .fault .unwrittenRam

/-- A command that commits a function of bank ra's and bank rb's words, all read before any is written (R59). -/
def State.binary (s : State) (rd ra rb : BankIx) (snap : Snapshot) (f : List Word → List Word → List Word) :
    Host.Outcome State Fault Refusal :=
  match s.bank? ra snap.n.toNat, s.bank? rb snap.n.toNat with
  | some a, some b => .next (s.commit rd (f a b))
  | _, _ => .fault .unwrittenRam

end Sys2Proof.Machine
end

