-- ==== Sys2Proof/Machine/Recon.lean ====
section
/-! DEFINITION. The reconciliation command RECON (R210–R216): exact threshold comparisons, one bit per coefficient. -/

namespace Sys2Proof.Machine

/-- x lies in [(a/8)·Q, (b/8)·Q], ends included, compared exactly (R210, R211). -/
def inEighths (q : Word) (a b x : Nat) : Bool := a * q.toNat ≤ 8 * x && 8 * x ≤ b * q.toNat

/-- selectLow: the reference coefficient r lies in [0, 0.25Q] or [0.5Q, 0.75Q] (R210). -/
def selectLow (q : Word) (r : Nat) : Bool := inEighths q 0 2 r || inEighths q 4 6 r

/-- The bit of one lane as the word 0 or 1: v in bit-interval-0 if the reference selects low, else in bit-interval-1
(R210, R214). -/
def reconLane (q v r : Word) : Word :=
  if selectLow q (res q r) then
    if inEighths q 1 5 (res q v) then 1 else 0
  else
    if inEighths q 3 7 (res q v) then 1 else 0

/-- RECON (R210). -/
def execRecon (rd ra rb : BankIx) (s : State) : Host.Outcome State Fault Refusal :=
  s.command (.recon rd ra rb) s.cfgValid fun snap _ => s.binary rd ra rb snap (List.zipWith (reconLane snap.q))

end Sys2Proof.Machine
end

