-- ==== Sys2Proof/Machine/Ring.lean ====
section
/-! DEFINITION. The ring arithmetic, reduction, move and constant commands (R140–R166): NOP, ADD, NEG, MUL, REDQ, REDQS, RIDL,
MOV and CLR. All arithmetic is exact integer arithmetic followed by one floor-modulo reduction (R141). -/

namespace Sys2Proof.Machine

/-! ### One lane -/

/-- (A + B) mod Q on residues (R142). -/
def addLane (q a b : Word) : Word := modQ q ((res q a : Int) + res q b)

/-- (0 − A) mod Q on a residue (R143). -/
def negLane (q a : Word) : Word := modQ q (0 - (res q a : Int))

/-- zext(w) mod Q (R150). -/
def redqLane (q a : Word) : Word := modQ q (a.toNat : Int)

/-- sext(w) mod Q (R152). -/
def redqsLane (q a : Word) : Word := modQ q a.toInt

/-- (A − B) mod Q on residues (R155). -/
def ridlLane (q a b : Word) : Word := modQ q ((res q a : Int) - res q b)

/-! ### The product -/

/-- The coefficient c of x^k in a·b modulo x^n + 1, an exact integer. For each i there is one j with i + j = k, or one with
i + j = k + n, where x^n = −1 changes the sign (R144). -/
def mulCoeff (n : Nat) (a b : Nat → Int) (k : Nat) : Int :=
  ((List.range n).map fun i => if i ≤ k then a i * b (k - i) else -(a i * b (k + n - i))).sum

/-- Coefficient i of a bank's words, as a residue. -/
def coeff (q : Word) (ws : List Word) (i : Nat) : Int := (res q (ws.getD i 0) : Int)

/-- The words of the product of two banks of n words (R144). -/
def mulWords (n : Nat) (q : Word) (a b : List Word) : List Word :=
  (List.range n).map fun k => modQ q (mulCoeff n (coeff q a) (coeff q b) k)

/-! ### The commands -/

/-- NOP (R140). It skips the configuration check and only completes. -/
def execNop (s : State) : Host.Outcome State Fault Refusal :=
  s.command .nop true fun _ _ => .next s.complete

/-- ADD (R142). -/
def execAdd (rd ra rb : BankIx) (s : State) : Host.Outcome State Fault Refusal :=
  s.command (.add rd ra rb) s.cfgValid fun snap _ => s.binary rd ra rb snap (List.zipWith (addLane snap.q))

/-- NEG (R143). -/
def execNeg (rd ra : BankIx) (s : State) : Host.Outcome State Fault Refusal :=
  s.command (.neg rd ra) s.cfgValid fun snap _ => s.unary rd ra snap (List.map (negLane snap.q))

/-- MUL (R144). -/
def execMul (rd ra rb : BankIx) (s : State) : Host.Outcome State Fault Refusal :=
  s.command (.mul rd ra rb) s.cfgValid fun snap _ => s.binary rd ra rb snap (mulWords snap.n.toNat snap.q)

/-- REDQ (R150). -/
def execRedq (rd ra : BankIx) (s : State) : Host.Outcome State Fault Refusal :=
  s.command (.redq rd ra) s.cfgValid fun snap _ => s.unary rd ra snap (List.map (redqLane snap.q))

/-- REDQS (R152). -/
def execRedqs (rd ra : BankIx) (s : State) : Host.Outcome State Fault Refusal :=
  s.command (.redqs rd ra) s.cfgValid fun snap _ => s.unary rd ra snap (List.map (redqsLane snap.q))

/-- RIDL (R155). -/
def execRidl (rd ra rb : BankIx) (s : State) : Host.Outcome State Fault Refusal :=
  s.command (.ridl rd ra rb) s.cfgValid fun snap _ => s.binary rd ra rb snap (List.zipWith (ridlLane snap.q))

/-- MOV (R161): raw words, not reduced. -/
def execMov (rd ra : BankIx) (s : State) : Host.Outcome State Fault Refusal :=
  s.command (.mov rd ra) s.cfgValid fun snap _ => s.unary rd ra snap id

/-- CLR (R163). It reads no bank, so it never faults. -/
def execClr (rd : BankIx) (s : State) : Host.Outcome State Fault Refusal :=
  s.command (.clr rd) s.cfgValid fun snap _ => .next (s.commit rd (List.replicate snap.n.toNat 0))

end Sys2Proof.Machine
end

