-- ==== Sys2Proof/Machine/Sampler.lean ====
section
/-! DEFINITION. The sampler commands (R180–R197): GSMP, GCDT and UNIF. Each runs as Draw steps and then one commit (R60). -/

namespace Sys2Proof.Machine

/-! ### GSMP -/

/-- rhe(a, d): a/d rounded to the nearest integer, ties to even (R184). -/
def rhe (a d : Int) : Int :=
  let q := a / d
  let rho := a - q * d
  if 2 * rho > d then q + 1
  else if 2 * rho < d then q
  else if q % 2 = 0 then q
  else q + 1

/-- The exact integer X with X / 2^(2F) = μ + σ·z (R183). -/
def gsmpExact (snap : Snapshot) (z : Word) : Int :=
  snap.gmu.toInt * 2 ^ snap.frac.toNat + (snap.gsigma.toNat : Int) * z.toInt

/-- One coefficient of GSMP from the entropy word z (R183). -/
def gsmpValue (snap : Snapshot) (z : Word) : Word :=
  modQ snap.q (rhe (gsmpExact snap z) (2 ^ (2 * snap.frac.toNat)))

/-- The Draw step of GSMP (R183). -/
def gsmpDraw (snap : Snapshot) (prog : Progress) (z : Word) : Progress :=
  { prog with scratch := prog.scratch ++ [gsmpValue snap z] }

/-- GSMP (R183, R54). -/
def execGsmp (rd : BankIx) (s : State) : Host.Outcome State Fault Refusal :=
  s.command (.gsmp rd) (s.cfgValid && s.gsigma != 0) fun snap prog =>
    s.samplerStep (.gsmp rd) rd snap prog fun z => some (gsmpDraw snap prog z)

/-! ### GCDT -/

/-- One coefficient of GCDT from the entropy word u and the used thresholds (R190). -/
def gcdtValue (snap : Snapshot) (table : List Word) (u : Word) : Word :=
  modQ snap.q (snap.cdtOffset.toInt + (table.countP fun t => t.toNat ≤ u.toNat : Nat))

/-- The Draw step of GCDT; none if a used threshold was never written (R190, R33). -/
def State.gcdtDraw (s : State) (snap : Snapshot) (prog : Progress) (u : Word) : Option Progress :=
  match s.cdt? snap.cdtLen.toNat with
  | none => none
  | some table => some { prog with scratch := prog.scratch ++ [gcdtValue snap table u] }

/-- GCDT (R190, R54). -/
def execGcdt (rd : BankIx) (s : State) : Host.Outcome State Fault Refusal :=
  s.command (.gcdt rd) (s.cfgValid && s.cdtLen.toNat ≤ cdtMax) fun snap prog =>
    s.samplerStep (.gcdt rd) rd snap prog (s.gcdtDraw snap prog)

/-! ### UNIF -/

/-- bitlen(x): the least k with x < 2^k, for x ≥ 1 (R12). -/
def bitlen (x : Nat) : Nat := Nat.log2 x + 1

/-- k = bitlen(2Q − 2), the bits of one attempt (R192). -/
def unifBits (q : Word) : Nat := bitlen (2 * q.toNat - 2)

/-- One attempt with the number t: accepted if t ≤ 2Q − 2, else discarded (R192). -/
def unifAttempt (q : Word) (scratch : List Word) (t : Nat) : Progress :=
  { scratch := if t ≤ 2 * q.toNat - 2 then scratch ++ [modQ q ((t : Int) - ((q.toNat : Int) - 1))] else scratch
    pending := none }

/-- The Draw step of UNIF: one word per attempt for k ≤ 32, else a low word and then a high word of which bit 0 is used
(R192, R193). -/
def unifDraw (snap : Snapshot) (prog : Progress) (w : Word) : Progress :=
  if unifBits snap.q ≤ 32 then
    { unifAttempt snap.q prog.scratch (w.toNat % 2 ^ unifBits snap.q) with pending := prog.pending }
  else
    match prog.pending with
    | none => { prog with pending := some w }
    | some low => unifAttempt snap.q prog.scratch ((w.getLsbD 0).toNat * 2 ^ 32 + low.toNat)

/-- UNIF (R192). -/
def execUnif (rd : BankIx) (s : State) : Host.Outcome State Fault Refusal :=
  s.command (.unif rd) s.cfgValid fun snap prog =>
    s.samplerStep (.unif rd) rd snap prog fun w => some (unifDraw snap prog w)

end Sys2Proof.Machine
end

