-- ==== Sys2Proof/Machine/Dispatch.lean ====
section
/-! DEFINITION. The dispatch of every command to its meaning. On an idle block a meaning is the acceptance of the command
submitted (R120, R121); on a running block it is the sequencer's next step for it (R60). -/

namespace Sys2Proof.Machine

def exec (i : Instr) (s : State) : Host.Outcome State Fault Refusal :=
  match i with
  | .nop => Sys2Proof.Machine.execNop s
  | .add rd ra rb => Sys2Proof.Machine.execAdd rd ra rb s
  | .neg rd ra => Sys2Proof.Machine.execNeg rd ra s
  | .mul rd ra rb => Sys2Proof.Machine.execMul rd ra rb s
  | .redq rd ra => Sys2Proof.Machine.execRedq rd ra s
  | .redqs rd ra => Sys2Proof.Machine.execRedqs rd ra s
  | .ridl rd ra rb => Sys2Proof.Machine.execRidl rd ra rb s
  | .mov rd ra => Sys2Proof.Machine.execMov rd ra s
  | .clr rd => Sys2Proof.Machine.execClr rd s
  | .gsmp rd => Sys2Proof.Machine.execGsmp rd s
  | .gcdt rd => Sys2Proof.Machine.execGcdt rd s
  | .unif rd => Sys2Proof.Machine.execUnif rd s
  | .recon rd ra rb => Sys2Proof.Machine.execRecon rd ra rb s

end Sys2Proof.Machine
end

