-- ==== Sys2Proof/Machine/Bus.lean ====
section
/-! DEFINITION. The host bus: the register map (R37–R52), the acceptance of a CMD write (R120), reads and writes of the host
window (R84–R89), and the accesses the block has no step for (R81, R82). -/

namespace Sys2Proof.Machine

/-- A write to CTRL: bit 3 is a soft reset that discards the rest of the write; otherwise bits 0 to 2 are stored and bit 4
empties the FIFO (R39). -/
def State.writeCtrl (s : State) (v : Word) : State :=
  if v.getLsbD 3 then s.softReset
  else
    { s with
      ieDone := v.getLsbD 0
      ieErr := v.getLsbD 1
      entSel := v.getLsbD 2
      fifo := if v.getLsbD 4 then [] else s.fifo }

/-- The error that acceptance reports for a word the decoder rejects (R114, R115). -/
def DecodeError.errCode : DecodeError → ErrCode
  | .undefinedOpcode => .opcode
  | .reservedBits => .rsvd

/-- A write to CMD (R48, R120): refused while a command is in flight, else decoded; a word that is a command goes to its
meaning, whose idle phase makes the remaining checks. -/
def State.writeCmd (s : State) (w : Word) : Host.Outcome State Fault Refusal :=
  if s.busy then .next (s.raiseError .busy w)
  else
    match decode w with
    | .error e => .next (s.raiseError (DecodeError.errCode e) w)
    | .ok i => exec i s

/-- The value a register read returns, by byte offset (R37–R52). ENT_PUSH reads 0. -/
def State.readReg (s : State) (off : Nat) : Word :=
  match off with
  | 0x000 => idWord
  | 0x004 => capsWord s.build
  | 0x008 => s.ctrlWord
  | 0x00C => s.statusWord
  | 0x010 => s.cmd
  | 0x014 => s.errCode.setWidth 32
  | 0x018 => s.errInfo
  | 0x01C => s.cfgN
  | 0x020 => s.cfgQ
  | 0x024 => s.frac.setWidth 32
  | 0x028 => s.gmu
  | 0x02C => s.gsigma
  | 0x030 => s.cdtLen.setWidth 32
  | 0x034 => s.cdtOffset
  | 0x03C => BitVec.ofNat 32 s.fifo.length
  | _ => 0

/-- A register write, by byte offset (R37–R52). A write to a read-only register is ignored (R88). -/
def State.writeReg (s : State) (off : Nat) (v : Word) : Host.Outcome State Fault Refusal :=
  match off with
  | 0x008 => .next (s.writeCtrl v)
  | 0x00C => .next (s.acknowledge v)
  | 0x010 => s.writeCmd v
  | 0x01C => .next { s with cfgN := v }
  | 0x020 => .next { s with cfgQ := v }
  | 0x024 => .next { s with frac := v.setWidth 5 }
  | 0x028 => .next { s with gmu := v }
  | 0x02C => .next { s with gsigma := v }
  | 0x030 => .next { s with cdtLen := v.setWidth 7 }
  | 0x034 => .next { s with cdtOffset := v }
  | 0x038 => .next (s.push v)
  | _ => .next s

/-- A host read completes with this word. -/
def State.returns (s : State) (v : Word) : State := { s with rdata := some v }

/-- MemRead(BASE + off, 4) for a multiple of 4 in the window (R86). -/
def State.memRead (s : State) (off : Nat) : Host.Outcome State Fault Refusal :=
  if off < csrEnd then .next (s.returns (s.readReg off))
  else if s.build.isRam off then
    if s.busy then .next ((s.raiseError .hostAcc (BitVec.ofNat 32 off)).returns 0)
    else
      match s.ram.word? off with
      | none => .fault .unwrittenRam
      | some v => .next (s.returns v)
  else .next (s.returns 0)

/-- MemWrite(BASE + off, 4, v) for a multiple of 4 in the window (R87). -/
def State.memWrite (s : State) (off : Nat) (v : Word) : Host.Outcome State Fault Refusal :=
  if off < csrEnd then s.writeReg off v
  else if s.build.isRam off then
    if s.busy then .next (s.raiseError .hostAcc (BitVec.ofNat 32 off))
    else .next { s with ram := s.ram.storeWords off [v] }
  else .next s

/-- A host access at a byte address: `act` on the offset from BASE. An address outside the window is none of the block's
(R81); anything but one word at a multiple of 4 has no step (R82). -/
def State.access (s : State) (addr size : Nat) (act : Nat → Host.Outcome State Fault Refusal) :
    Host.Outcome State Fault Refusal :=
  if addr < s.build.base ∨ s.build.base + windowSize ≤ addr then .fault .outsideWindow
  else if size = 4 ∧ (addr - s.build.base) % 4 = 0 then act (addr - s.build.base)
  else .refused .notOneWord

/-- The sequencer's step (R60): the next step of the running command, or none on an idle block. -/
def State.sequencerStep (s : State) : Host.Outcome State Fault Refusal :=
  match s.seq with
  | .idle => .next s
  | .run i _ _ => exec i s

/-- One move of one agent (R9). -/
def State.move (s : State) (e : Input) : Host.Outcome State Fault Refusal :=
  match e with
  | .read addr size => s.access addr size s.memRead
  | .write addr size v => s.access addr size fun off => s.memWrite off v
  | .sequencer => s.sequencerStep
  | .entropy offer => .next { s with entPort := offer }
  | .hardReset => .next s.hardReset

/-- The schedule with one more host access in front: the write of a command word to CMD, on an idle block. -/
def State.placeCommand (s : State) (w : Word) : State :=
  { s with
    seq := .idle
    inputs := .write (s.build.base + cmdOffset) 4 w :: s.inputs }

end Sys2Proof.Machine
end

