-- ==== Sys2Proof/Machine/Step.lean ====
section
/-! DEFINITION. One step of the machine, and the placing of a command word where the next step takes it. -/

namespace Sys2Proof.Machine

/-- One step: the next move of the schedule, or, when the schedule is empty, the sequencer's (R60, R92). A sequencer with no
enabled step leaves the state as it is: an idle block, or a sampler that waits for entropy (R11, R181). -/
def step (s : State) : Host.Outcome State Fault Refusal :=
  match s.inputs with
  | [] => s.sequencerStep
  | e :: rest => { s with inputs := rest }.move e

/-- `s` with the command word `w` placed where the machine takes its next command: as the host's next access, a write of the
word to CMD (R48, R96), on an idle block. A command is one 32-bit word, so `nbits` above 32 adds only zeros. -/
def State.withFetchWord (s : State) (nbits w : Nat) : State := s.placeCommand (BitVec.ofNat 32 (w % 2 ^ nbits))

end Sys2Proof.Machine
end

