-- ==== Sys2Proof/Machine/Assembler.lean ====
section
/-! DEFINITION. The host's side of the block, as the spec writes it: command syntax and the disassembler (R123, R125), host
lines as moves of the schedule (R123), and the pseudo-instructions (R124). -/

namespace Sys2Proof.Machine

/-- The mnemonic column of R113. -/
def mnemonic : Opcode → String
  | .nop => "NOP"
  | .add => "ADD"
  | .neg => "NEG"
  | .mul => "MUL"
  | .redq => "REDQ"
  | .redqs => "REDQS"
  | .ridl => "RIDL"
  | .mov => "MOV"
  | .clr => "CLR"
  | .gsmp => "GSMP"
  | .gcdt => "GCDT"
  | .unif => "UNIF"
  | .recon => "RECON"

/-- What a disassembler lists for a word (R125). -/
inductive Listing where
  /-- The mnemonic with the used fields in the order RD, RA, RB. -/
  | command (op : Opcode) (fields : List BankIx)
  /-- `.word`, with the error acceptance would raise. -/
  | word (w : Word) (error : ErrCode)
deriving DecidableEq, Repr

/-- Lists a word; total on every word (R125). A word that matches a row of R113 is listed by its mnemonic whatever banks the
build has. -/
def disassemble (w : Word) : Listing :=
  match decode w with
  | .ok i => .command i.opcode i.banks
  | .error e => .word w (DecodeError.errCode e)

/-- The number of bank fields a form uses (R112). -/
def Form.arity : Form → Nat
  | .z => 0
  | .d => 1
  | .da => 2
  | .dab => 3

/-- The encoding of a mnemonic with its used fields, if the form takes that many (R123). -/
def assemble (op : Opcode) (fields : List BankIx) : Option Word :=
  if fields.length = Form.arity op.form then
    some (encodeFields op (fields.getD 0 0) (fields.getD 1 0) (fields.getD 2 0))
  else none

/-- A bank's name, p0 to p15 (R123). -/
def bankName (f : BankIx) : String := "p" ++ Nat.repr f.toNat

/-- The opcodes in the order of R113. -/
def allOpcodes : List Opcode :=
  [.nop, .add, .neg, .mul, .redq, .redqs, .ridl, .mov, .clr, .gsmp, .gcdt, .unif, .recon]

/-- The opcode a mnemonic names, in capitals or not (R123). -/
def opcodeNamed? (text : String) : Option Opcode :=
  allOpcodes.find? fun op => (mnemonic op).toList == text.toList.map Char.toUpper

/-- The bank a name p0 to p15 stands for (R123). -/
def bankNamed? (text : String) : Option BankIx :=
  ((List.range 16).map (BitVec.ofNat 4)).find? fun f => bankName f == text

/-- The name of an error (R230). -/
def errorName : ErrCode → String
  | .cfg => "ERR_CFG"
  | .opcode => "ERR_OPCODE"
  | .bank => "ERR_BANK"
  | .busy => "ERR_BUSY"
  | .rsvd => "ERR_RSVD"
  | .hostAcc => "ERR_HOSTACC"
  | .entOvf => "ERR_ENT_OVF"

/-- A word's eight hexadecimal digits, capitals. -/
def hexWord (w : Word) : String :=
  String.ofList ((List.range 8).reverse.map fun k => (Nat.digitChar (w.toNat / 16 ^ k % 16)).toUpper)

/-- The text of a listing: `MNEMONIC p3, p0, p1` or `.word 0xXXXXXXXX` and the error's name (R123, R125). -/
def listingText : Listing → String
  | .command op [] => mnemonic op
  | .command op fields => mnemonic op ++ " " ++ String.intercalate ", " (fields.map bankName)
  | .word w e => ".word 0x" ++ hexWord w ++ " " ++ errorName e

/-- A host line of R123. `wait` repeats a read of STATUS until BUSY reads 0; how many reads that takes is the schedule's
matter, so a line says it, with one sequencer step before each. -/
inductive HostLine where
  | wr (off : Nat) (v : Word)
  | rd (off : Nat)
  | bank (f : BankIx) (words : List Word)
  | push (v : Word)
  | cmd (i : Instr)
  | wait (polls : Nat)
  | run (i : Instr) (polls : Nat)
deriving DecidableEq, Repr

/-- A word-wide write at a byte offset from BASE. -/
def hostWrite (b : Build) (off : Nat) (v : Word) : Input := .write (b.base + off) 4 v

/-- A word-wide read at a byte offset from BASE. -/
def hostRead (b : Build) (off : Nat) : Input := .read (b.base + off) 4

/-- Polling STATUS, one sequencer step before each read. -/
def waitInputs (b : Build) (polls : Nat) : List Input :=
  (List.replicate polls [.sequencer, hostRead b 0x00C]).flatten

/-- The moves a host line stands for (R123). -/
def hostInputs (b : Build) : HostLine → List Input
  | .wr off v => [hostWrite b off v]
  | .rd off => [hostRead b off]
  | .bank f words => words.zipIdx.map fun (v, i) => hostWrite b (b.bankOffset f i) v
  | .push v => [hostWrite b 0x038 v]
  | .cmd i => [hostWrite b cmdOffset (encode i)]
  | .wait polls => waitInputs b polls
  | .run i polls => hostWrite b cmdOffset (encode i) :: waitInputs b polls

/-- The pseudo-instructions of R124. -/
inductive Pseudo where
  | sqr (rd ra : BankIx)
  | zero (rd : BankIx)
  | sub (rd ra rb rt : BankIx)
  | ringred (rd ra : BankIx)
  | shared (rd rpk rsk : BankIx)
  | pubkey (rd rbase rsk re : BankIx)
  | keypair (rsk rpk rbase re : BankIx)
  | keyrecon (rd rpk rsk rref : BankIx)
deriving DecidableEq, Repr

/-- The commands a pseudo-instruction runs, in order (R124). -/
def expand : Pseudo → List Instr
  | .sqr rd ra => [.mul rd ra ra]
  | .zero rd => [.clr rd]
  | .sub rd ra rb rt => [.neg rt rb, .add rd ra rt]
  | .ringred rd ra => [.redq rd ra]
  | .shared rd rpk rsk => [.mul rd rpk rsk]
  | .pubkey rd rbase rsk re => [.mul rd rbase rsk, .add rd rd re]
  | .keypair rsk rpk rbase re => [.gsmp rsk, .gsmp re, .mul rpk rbase rsk, .add rpk rpk re]
  | .keyrecon rd rpk rsk rref => [.mul rd rpk rsk, .recon rd rd rref]

/-- The host's obligation for a pseudo-instruction (R124). -/
def pseudoCondition : Pseudo → Bool
  | .sub _ ra _ rt => rt != ra
  | .pubkey rd _ _ re => rd != re
  | .keypair rsk rpk rbase re => rsk != rpk && rsk != re && rpk != re && rbase != rsk && rbase != re
  | .keyrecon rd _ _ rref => rref != rd
  | .sqr .. => true
  | .zero .. => true
  | .ringred .. => true
  | .shared .. => true

end Sys2Proof.Machine
end

