-- ==== Sys2Proof/Safety.lean ====
section
/-! DEFINITION. The terms in which claims about runs are stated: what committing a result means, how a command is accepted,
which sources a command reads, and the invariant that every reachable state keeps. -/

namespace Sys2Proof.Machine

/-- The bank fields whose words a command reads (R142–R163, R210). -/
def sources : Instr → List BankIx
  | .nop => []
  | .add _ ra rb => [ra, rb]
  | .neg _ ra => [ra]
  | .mul _ ra rb => [ra, rb]
  | .redq _ ra => [ra]
  | .redqs _ ra => [ra]
  | .ridl _ ra rb => [ra, rb]
  | .mov _ ra => [ra]
  | .clr _ => []
  | .gsmp _ => []
  | .gcdt _ => []
  | .unif _ => []
  | .recon _ ra rb => [ra, rb]

/-- The bank a command writes; NOP writes none. -/
def destination? : Instr → Option BankIx
  | .nop => none
  | .add rd _ _ => some rd
  | .neg rd _ => some rd
  | .mul rd _ _ => some rd
  | .redq rd _ => some rd
  | .redqs rd _ => some rd
  | .ridl rd _ _ => some rd
  | .mov rd _ => some rd
  | .clr rd => some rd
  | .gsmp rd => some rd
  | .gcdt rd => some rd
  | .unif rd => some rd
  | .recon rd _ _ => some rd

/-- Words 0 to n − 1 of bank f have been written and hold `w 0` to `w (n − 1)`. -/
def State.holds (s : State) (f : BankIx) (n : Nat) (w : Nat → Word) : Prop :=
  ∀ k < n, s.bankWord? f k = some (w k)

/-- The outcome is a next state in which words 0 to n − 1 of bank rd are `f 0` to `f (n − 1)`; every byte outside them reads as
before; SEQ is Idle and STATUS.DONE is set; and nothing else has changed. -/
def State.CommitsTo (s : State) (rd : BankIx) (n : Nat) (f : Nat → Word) (o : Host.Outcome State Fault Refusal) : Prop :=
  ∃ t, o = .next t ∧ t.holds rd n f ∧
    (∀ a, a < s.build.bankOffset rd 0 ∨ s.build.bankOffset rd 0 + 4 * n ≤ a →
      Memory.byte? t.ram a = Memory.byte? s.ram a) ∧
    { t with ram := s.ram } = { s with seq := .idle, done := true }

/-- How a command is taken on an idle block once its word is decoded: ERR_CFG if `cfgOk` fails, else ERR_BANK if a used field
names no bank, else accepted (R120). A rejection records the error and changes nothing else. -/
def AcceptedWhen (i : Instr) (cfgOk : State → Prop) : Prop :=
  ∀ s : State, s.seq = .idle →
    (¬ cfgOk s → exec i s = .next (s.raiseError .cfg (encode i))) ∧
    (cfgOk s → (∃ f ∈ i.banks, s.build.nb ≤ f.toNat) → exec i s = .next (s.raiseError .bank (encode i))) ∧
    (cfgOk s → (∀ f ∈ i.banks, f.toNat < s.build.nb) →
      exec i s = .next { s with cmd := encode i, seq := .run i s.snapshot { scratch := [], pending := none } })

/-- Every word with this opcode that has a bit outside its form's fields is reserved, and an idle block rejects it with ERR_RSVD
and changes nothing else (R114). -/
def ReservedOutside (op : Opcode) : Prop :=
  ∀ w : Word, fieldOpc w = op.code → w &&& op.mask ≠ op.matchWord →
    decode w = .error .reservedBits ∧ ∀ s : State, s.seq = .idle → s.writeCmd w = .next (s.raiseError .rsvd w)

/-- ring_valid as R53 words it. -/
def RingValid (b : Build) (n q : Word) : Prop :=
  (∃ k : Nat, n.toNat = 2 ^ k ∧ 2 ^ k ≤ b.nmax) ∧ q.toNat % 2 = 1 ∧ 3 ≤ q.toNat

/-- The byte offsets of the CDT words and of the words of existing banks (R84). -/
def RamOffset (b : Build) (off : Nat) : Prop :=
  (∃ j < 64, off = 0x100 + 4 * j) ∨ (∃ f < b.nb, ∃ i < b.nmax, off = 0x10000 + 4 * (f * b.nmax + i))

/-- A byte offset of a whole word of the window (R81, R82). -/
def WindowWord (off : Nat) : Prop := off < 2 ^ 18 ∧ off % 4 = 0

/-- The configuration checks of R120 for an opcode: the ring for every opcode but NOP, σ for GSMP, L for GCDT. -/
def ConfigFits (op : Opcode) (s : State) : Prop :=
  (op ≠ .nop → RingValid s.build s.cfgN s.cfgQ) ∧ (op = .gsmp → s.gsigma ≠ 0) ∧ (op = .gcdt → s.cdtLen.toNat ≤ 64)

/-- The bank fields of a word that a form uses, in the order RD, RA, RB (R112). -/
def usedFields (form : Form) (w : Word) : List BankIx :=
  match form with
  | .z => []
  | .d => [fieldRd w]
  | .da => [fieldRd w, fieldRa w]
  | .dab => [fieldRd w, fieldRa w, fieldRb w]

/-- The sequencer is the agent that moves next: the schedule is empty or says so. -/
def State.sequencerMoves (s : State) : Prop := s.inputs = [] ∨ ∃ rest, s.inputs = .sequencer :: rest

/-- The state with these values in the live configuration registers and in CTRL.ENT_SEL. -/
def State.setConfig (s : State) (c : Snapshot) : State :=
  { s with
    cfgN := c.n
    cfgQ := c.q
    frac := c.frac
    gmu := c.gmu
    gsigma := c.gsigma
    cdtLen := c.cdtLen
    cdtOffset := c.cdtOffset
    entSel := c.entSel }

/-- An outcome with its next state, if it has one, changed by `f`. -/
def mapNext (f : State → State) : Host.Outcome State Fault Refusal → Host.Outcome State Fault Refusal
  | .next s => .next (f s)
  | .fault r => .fault r
  | .refused r => .refused r

/-- `k` steps of the machine. -/
def runSteps (k : Nat) (s : State) : Host.Outcome State Fault Refusal := Sys2Proof.core.run k s

/-- The sum of two polynomials, coefficient k (R142). -/
def polyAdd (q : Word) (a b : Nat → Word) (k : Nat) : Word := addLane q (a k) (b k)

/-- The additive inverse of a polynomial, coefficient k (R143). -/
def polyNeg (q : Word) (a : Nat → Word) (k : Nat) : Word := negLane q (a k)

/-- The zero polynomial (R163). -/
def polyZero : Nat → Word := fun _ => 0

/-- The product of two polynomials modulo x^n + 1 and Q, coefficient k (R144). -/
def polyMul (n : Nat) (q : Word) (a b : Nat → Word) (k : Nat) : Word :=
  modQ q (mulCoeff n (fun i => (res q (a i) : Int)) (fun i => (res q (b i) : Int)) k)

/-- The polynomial x^i. -/
def monomial (i k : Nat) : Word := if k = i then 1 else 0

/-- Coefficient m of the full product of two residue polynomials with n coefficients, before any reduction (R145). -/
def fullProduct (n : Nat) (q : Word) (a b : Nat → Word) (m : Nat) : Int :=
  ∑ i ∈ Finset.range n, ∑ j ∈ Finset.range n, if i + j = m then (res q (a i) : Int) * res q (b j) else 0

/-- Every register reads its reset value of R64, the FIFO is empty, SEQ is Idle, the lines irq and ent_ready are 0, and no RAM
word is written. -/
def State.ReadsReset (s : State) : Prop :=
  s.readReg 0x000 = 0x524C5745 ∧ s.readReg 0x004 = capsWord s.build ∧ s.readReg 0x008 = 0 ∧ s.readReg 0x00C = 8 ∧
    s.readReg 0x010 = 0 ∧ s.readReg 0x014 = 0 ∧ s.readReg 0x018 = 0 ∧ (s.readReg 0x01C).toNat = min 1024 s.build.nmax ∧
    s.readReg 0x020 = 0xFFFFFFFF ∧ s.readReg 0x024 = 0x10 ∧ s.readReg 0x028 = 0 ∧ s.readReg 0x02C = 0x00010000 ∧
    s.readReg 0x030 = 0 ∧ s.readReg 0x034 = 0 ∧ s.readReg 0x038 = 0 ∧ s.readReg 0x03C = 0 ∧
    s.seq = .idle ∧ s.fifo = [] ∧ s.irq = false ∧ s.entReady = false ∧
    RingValid s.build s.cfgN s.cfgQ ∧ ∀ off, s.ram.word? off = none

/-- The machine's next move is a hard reset, or a host write to CTRL with bit 3, SOFT_RESET, set (R270, R272). -/
def State.resetMoves (s : State) : Prop :=
  ∃ rest, s.inputs = .hardReset :: rest ∨
    ∃ v, s.inputs = .write (s.build.base + 0x008) 4 v :: rest ∧ v.getLsbD 3 = true

/-- The machine's next move is a host write to STATUS with this bit set, which acknowledges the flag there (R40, R241). -/
def State.acknowledges (s : State) (bit : Nat) : Prop :=
  ∃ v rest, s.inputs = .write (s.build.base + 0x00C) 4 v :: rest ∧ v.getLsbD bit = true

/-- A sampler runs, needs a coefficient, and draws from the source that `sel` names: false the FIFO, true the port (R60). -/
def State.drawsFrom (s : State) (sel : Bool) : Prop :=
  ∃ i snap prog, s.seq = .run i snap prog ∧ ((∃ rd, i = .gsmp rd) ∨ (∃ rd, i = .gcdt rd) ∨ (∃ rd, i = .unif rd)) ∧
    prog.scratch.length < snap.n.toNat ∧ snap.entSel = sel

/-- The next step of a sampler command is a wait: a coefficient is missing and its source offers no word (R62). -/
def State.waits (s : State) (snap : Snapshot) (prog : Progress) : Prop :=
  prog.scratch.length < snap.n.toNat ∧ s.offered snap.entSel = none

/-- What taking the offered word does to the source that offered it: the FIFO loses its head, or the port's word is gone. -/
def State.taken (s : State) (sel : Bool) : State :=
  if sel then { s with entPort := none } else { s with fifo := s.fifo.tail }

/-- What the sequencer holds is what acceptance and its own steps can have put there. -/
def State.seqOk (s : State) : Prop :=
  match s.seq with
  | .idle => True
  | .run i snap prog =>
    i.wf s.build.nb = true ∧ s.cmd = encode i ∧
      (i ≠ .nop → RingValid s.build snap.n snap.q) ∧
      ((∃ rd, i = .gsmp rd) → snap.gsigma ≠ 0) ∧
      ((∃ rd, i = .gcdt rd) → snap.cdtLen.toNat ≤ cdtMax) ∧
      (isSampler i = false → prog = Progress.start) ∧
      prog.scratch.length ≤ snap.n.toNat ∧
      (∀ w ∈ prog.scratch, w.toNat < snap.q.toNat) ∧
      (prog.pending ≠ none → (∃ rd, i = .unif rd) ∧ 32 < unifBits snap.q)

/-- The invariant of every reachable state. -/
structure State.Inv (s : State) : Prop where
  /-- The build is one R5 allows. -/
  build : s.build.Legal
  /-- RAM has its canonical form. -/
  ramWf : s.ram.wf
  /-- Only CDT words and words of existing banks are written (R84). -/
  ramMapped : ∀ a, (Memory.byte? s.ram a).isSome = true → s.build.isRam a = true
  /-- Bytes are written by whole words: there is one written bit per word (R33). -/
  ramWhole : ∀ a, (Memory.byte? s.ram a).isSome = (Memory.byte? s.ram (a / 4 * 4)).isSome
  /-- The FIFO holds at most ENT_DEPTH words (R36). -/
  fifoFits : s.fifo.length ≤ s.build.entDepth
  /-- No error is recorded while ERR is 0 (R230, R241). -/
  noErr : s.err = false → s.errCode = 0 ∧ s.errInfo = 0
  /-- While ERR is 1 the code is 1 to 7: codes 8 to 15 are never raised (R230). -/
  errKnown : s.err = true → 1 ≤ s.errCode.toNat ∧ s.errCode.toNat ≤ 7
  /-- What the sequencer holds. -/
  seqOk : s.seqOk

end Sys2Proof.Machine
end

