-- ==== Sys2Proof/Certificates/Slice0/Obligations.lean ====
section
/-! DEFINITION. The statements for the provers. Each docstring says which rules of spec/ a statement formalises.
A host access, an entropy offer, a hard reset and a sequencer step are named through `inputs`, the model's own list of the moves
to come, and a host read's word through `rdata`, the model's own record of it (log entries 1 and 4). -/

open Sys2Proof Sys2Proof.Machine

/-! ### Encoding -/

/-- The decoder reads every encoded command back, whatever its bank fields (30_encoding.md §6). -/
def Obligations.DecodeReadsBackEveryEncoding : Prop :=
  ∀ i : Instr, decode (encode i) = .ok i

/-- A word the decoder accepts is the encoding of the command it reads: no bit of it is dropped (30_encoding.md §2). -/
def Obligations.EncodeRebuildsEveryDecodedWord : Prop :=
  ∀ (w : Word) (i : Instr), decode w = .ok i → encode i = w

/-- R113: the table's match and mask select the command, and every OPC value not listed is undefined. -/
def Obligations.MaskAndMatchSelectTheCommand : Prop :=
  (∀ (w : Word) (op : Opcode), (∃ i, decode w = .ok i ∧ i.opcode = op) ↔ w &&& op.mask = op.matchWord) ∧
  (∀ w : Word, (∀ op : Opcode, fieldOpc w ≠ op.code) → decode w = .error .undefinedOpcode) ∧
  ([(.nop, .z, 0x00000000, 0xFFFFFFFF), (.add, .dab, 0x00000001, 0xFFF000FF), (.neg, .da, 0x00000002, 0xFFFF00FF),
    (.mul, .dab, 0x00000003, 0xFFF000FF), (.redq, .da, 0x00000004, 0xFFFF00FF), (.redqs, .da, 0x00000005, 0xFFFF00FF),
    (.ridl, .dab, 0x00000006, 0xFFF000FF), (.mov, .da, 0x00000007, 0xFFFF00FF), (.clr, .d, 0x00000008, 0xFFFFF0FF),
    (.gsmp, .d, 0x00000010, 0xFFFFF0FF), (.gcdt, .d, 0x00000011, 0xFFFFF0FF), (.unif, .d, 0x00000012, 0xFFFFF0FF),
    (.recon, .dab, 0x00000020, 0xFFF000FF)] : List (Opcode × Form × Word × Word)).all
    (fun row => row.1.form = row.2.1 && row.1.matchWord = row.2.2.1 && row.1.mask = row.2.2.2)

/-- R114, R115: which words are reserved and which undefined, and that an idle block rejects either with its error and changes
nothing else. -/
def Obligations.ReservedAndUndefinedWordsAreRejected : Prop :=
  (∀ (w : Word) (op : Opcode), fieldOpc w = op.code →
    (decode w = .error .reservedBits ↔
      w.extractLsb' 20 12 ≠ 0 ∨ (op.form ≠ .dab ∧ fieldRb w ≠ 0) ∨
        ((op.form = .z ∨ op.form = .d) ∧ fieldRa w ≠ 0) ∨ (op.form = .z ∧ fieldRd w ≠ 0))) ∧
  (∀ w : Word, decode w = .error .undefinedOpcode ↔
    (0x09 ≤ (fieldOpc w).toNat ∧ (fieldOpc w).toNat ≤ 0x0F) ∨ (0x13 ≤ (fieldOpc w).toNat ∧ (fieldOpc w).toNat ≤ 0x1F) ∨
      0x21 ≤ (fieldOpc w).toNat) ∧
  (∀ (s : State) (w : Word), s.seq = .idle →
    (decode w = .error .reservedBits → s.writeCmd w = .next (s.raiseError .rsvd w)) ∧
    (decode w = .error .undefinedOpcode → s.writeCmd w = .next (s.raiseError .opcode w)))

/-- The five worked encodings of R125, read by the decoder. -/
def Obligations.WorkedEncodingsDecode : Prop :=
  decode 0x00010303 = .ok (.mul 3 0 1) ∧ decode 0x00023301 = .ok (.add 3 3 2) ∧ decode 0x00026620 = .ok (.recon 6 6 2) ∧
    decode 0x00000012 = .ok (.unif 0) ∧ decode 0x00000208 = .ok (.clr 2)

/-! ### Acceptance and the step -/

/-- A step runs the decoded command: a CMD write on an idle block is its meaning's acceptance, and the sequencer's move on a
running block is its meaning's next step; a step around it only takes the move off the schedule. That `exec` holds both phases,
and that the sequencer moves when no other move is listed, is the model's choice (log entries 1 and 3). -/
def Obligations.StepRunsTheDecodedCommand : Prop :=
  (∀ (s : State) (w : Word) (i : Instr) (rest : List Input), s.seq = .idle →
    s.inputs = .write (s.build.base + 0x010) 4 w :: rest → decode w = .ok i → step s = exec i { s with inputs := rest }) ∧
  (∀ (s : State) (i : Instr) (snap : Snapshot) (prog : Progress), s.seq = .run i snap prog →
    (s.inputs = [] → step s = exec i s) ∧
    (∀ rest, s.inputs = .sequencer :: rest → step s = exec i { s with inputs := rest }))

/-- R120: a host write to CMD makes the checks in their order; the first that fails raises its error and changes nothing else;
otherwise the command is accepted, with STATUS.DONE as it was. -/
def Obligations.CommandWriteMakesTheAcceptanceChecks : Prop :=
  ∀ (s : State) (w : Word) (rest : List Input), s.inputs = .write (s.build.base + 0x010) 4 w :: rest →
    (s.seq ≠ .idle → step s = .next ({ s with inputs := rest }.raiseError .busy w)) ∧
    (s.seq = .idle →
      ((∀ op : Opcode, fieldOpc w ≠ op.code) → step s = .next ({ s with inputs := rest }.raiseError .opcode w)) ∧
      (∀ op : Opcode, fieldOpc w = op.code →
        (w &&& op.mask ≠ op.matchWord → step s = .next ({ s with inputs := rest }.raiseError .rsvd w)) ∧
        (w &&& op.mask = op.matchWord →
          (¬ ConfigFits op s → step s = .next ({ s with inputs := rest }.raiseError .cfg w)) ∧
          (ConfigFits op s → (∃ f ∈ usedFields op.form w, s.build.nb ≤ f.toNat) →
            step s = .next ({ s with inputs := rest }.raiseError .bank w)) ∧
          (ConfigFits op s → (∀ f ∈ usedFields op.form w, f.toNat < s.build.nb) →
            step s = .next { s with
              inputs := rest
              cmd := w
              seq := .run (op.instr (fieldRd w) (fieldRa w) (fieldRb w)) s.snapshot { scratch := [], pending := none } }))))

/-- R58: acceptance copies the eight configuration values; the running command reads none of the live registers, so writing
them changes only later commands; and while BUSY no host access changes the CDT table or any bank. -/
def Obligations.SnapshotShieldsTheRunningCommand : Prop :=
  (∀ (s : State) (i : Instr), (s.accept i).seq =
    .run i
      { n := s.cfgN
        q := s.cfgQ
        frac := s.frac
        gmu := s.gmu
        gsigma := s.gsigma
        cdtLen := s.cdtLen
        cdtOffset := s.cdtOffset
        entSel := s.entSel }
      { scratch := [], pending := none }) ∧
  (∀ (s : State) (i j : Instr) (snap : Snapshot) (prog : Progress) (c : Snapshot), s.seq = .run j snap prog →
    exec i (s.setConfig c) = mapNext (fun t => t.setConfig c) (exec i s)) ∧
  (∀ (s t : State) (off : Nat) (v : Word), s.busy = true → s.memWrite off v = .next t → t.ram = s.ram)

/-! ### The commands: acceptance, result and frame

Each statement says how the command is accepted, and that from every running state whose sources are written it completes with
exactly this result and changes nothing else; a sampler's says so for each of its steps. -/

/-- R140: NOP is accepted whatever the configuration, a nonzero word with its opcode is rejected with ERR_RSVD, a NOP written
while a command is in flight with ERR_BUSY, and a running NOP only completes. -/
def Obligations.NopOnlyCompletes : Prop :=
  (∀ s : State, s.seq = .idle →
    exec .nop s = .next { s with cmd := 0, seq := .run .nop s.snapshot { scratch := [], pending := none } }) ∧
  (∀ (s : State) (w : Word), s.seq = .idle → fieldOpc w = 0 → w ≠ 0 → s.writeCmd w = .next (s.raiseError .rsvd w)) ∧
  (∀ s : State, s.seq ≠ .idle → s.writeCmd 0 = .next (s.raiseError .busy 0)) ∧
  ∀ (s : State) (snap : Snapshot) (prog : Progress), s.seq = .run .nop snap prog →
    exec .nop s = .next { s with seq := .idle, done := true }

/-- R142. -/
def Obligations.AddCommitsTheSums : Prop :=
  ReservedOutside .add ∧
  ∀ rd ra rb : BankIx, AcceptedWhen (.add rd ra rb) (fun s => RingValid s.build s.cfgN s.cfgQ) ∧
  ∀ (s : State) (snap : Snapshot) (prog : Progress) (a b : Nat → Word), s.seq = .run (.add rd ra rb) snap prog →
    s.holds ra snap.n.toNat a → s.holds rb snap.n.toNat b →
    s.CommitsTo rd snap.n.toNat
      (fun k => BitVec.ofNat 32 (((a k).toNat % snap.q.toNat + (b k).toNat % snap.q.toNat) % snap.q.toNat))
      (exec (.add rd ra rb) s)

/-- R143. -/
def Obligations.NegCommitsTheInverses : Prop :=
  ReservedOutside .neg ∧
  ∀ rd ra : BankIx, AcceptedWhen (.neg rd ra) (fun s => RingValid s.build s.cfgN s.cfgQ) ∧
  ∀ (s : State) (snap : Snapshot) (prog : Progress) (a : Nat → Word), s.seq = .run (.neg rd ra) snap prog →
    0 < snap.q.toNat → s.holds ra snap.n.toNat a →
    s.CommitsTo rd snap.n.toNat
      (fun k => BitVec.ofNat 32 (if (a k).toNat % snap.q.toNat = 0 then 0 else snap.q.toNat - (a k).toNat % snap.q.toNat))
      (exec (.neg rd ra) s)

/-- R144: the triple loop of the rule, an exact integer reduced once. -/
def Obligations.MulCommitsTheNegacyclicProduct : Prop :=
  ReservedOutside .mul ∧
  ∀ rd ra rb : BankIx, AcceptedWhen (.mul rd ra rb) (fun s => RingValid s.build s.cfgN s.cfgQ) ∧
  ∀ (s : State) (snap : Snapshot) (prog : Progress) (a b : Nat → Word), s.seq = .run (.mul rd ra rb) snap prog →
    s.holds ra snap.n.toNat a → s.holds rb snap.n.toNat b →
    s.CommitsTo rd snap.n.toNat
      (fun k => modQ snap.q (∑ i ∈ Finset.range snap.n.toNat, ∑ j ∈ Finset.range snap.n.toNat,
        if i + j = k then ((a i).toNat % snap.q.toNat : Nat) * ((b j).toNat % snap.q.toNat : Nat)
        else if i + j = k + snap.n.toNat then
          -(((a i).toNat % snap.q.toNat : Nat) * ((b j).toNat % snap.q.toNat : Nat) : Int)
        else 0))
      (exec (.mul rd ra rb) s)

/-- R150. -/
def Obligations.RedqCommitsTheUnsignedResidues : Prop :=
  ReservedOutside .redq ∧
  ∀ rd ra : BankIx, AcceptedWhen (.redq rd ra) (fun s => RingValid s.build s.cfgN s.cfgQ) ∧
  ∀ (s : State) (snap : Snapshot) (prog : Progress) (a : Nat → Word), s.seq = .run (.redq rd ra) snap prog →
    s.holds ra snap.n.toNat a →
    s.CommitsTo rd snap.n.toNat (fun k => BitVec.ofNat 32 ((a k).toNat % snap.q.toNat)) (exec (.redq rd ra) s)

/-- R152. -/
def Obligations.RedqsCommitsTheSignedResidues : Prop :=
  ReservedOutside .redqs ∧
  ∀ rd ra : BankIx, AcceptedWhen (.redqs rd ra) (fun s => RingValid s.build s.cfgN s.cfgQ) ∧
  ∀ (s : State) (snap : Snapshot) (prog : Progress) (a : Nat → Word), s.seq = .run (.redqs rd ra) snap prog →
    s.holds ra snap.n.toNat a →
    s.CommitsTo rd snap.n.toNat
      (fun k => modQ snap.q (if (a k).toNat < 2 ^ 31 then ((a k).toNat : Int) else (a k).toNat - 2 ^ 32))
      (exec (.redqs rd ra) s)

/-- R155. -/
def Obligations.RidlCommitsTheFoldedDifference : Prop :=
  ReservedOutside .ridl ∧
  ∀ rd ra rb : BankIx, AcceptedWhen (.ridl rd ra rb) (fun s => RingValid s.build s.cfgN s.cfgQ) ∧
  ∀ (s : State) (snap : Snapshot) (prog : Progress) (a b : Nat → Word), s.seq = .run (.ridl rd ra rb) snap prog →
    0 < snap.q.toNat → s.holds ra snap.n.toNat a → s.holds rb snap.n.toNat b →
    s.CommitsTo rd snap.n.toNat
      (fun k => BitVec.ofNat 32
        (((a k).toNat % snap.q.toNat + (snap.q.toNat - (b k).toNat % snap.q.toNat)) % snap.q.toNat))
      (exec (.ridl rd ra rb) s)

/-- R161. -/
def Obligations.MovCommitsTheRawWords : Prop :=
  ReservedOutside .mov ∧
  ∀ rd ra : BankIx, AcceptedWhen (.mov rd ra) (fun s => RingValid s.build s.cfgN s.cfgQ) ∧
  ∀ (s : State) (snap : Snapshot) (prog : Progress) (a : Nat → Word), s.seq = .run (.mov rd ra) snap prog →
    (s.holds ra snap.n.toNat a → s.CommitsTo rd snap.n.toNat a (exec (.mov rd ra) s)) ∧
    ((∃ k < snap.n.toNat, s.bankWord? ra k = none) → exec (.mov rd ra) s = .fault .unwrittenRam)

/-- R163. -/
def Obligations.ClrCommitsZeros : Prop :=
  ReservedOutside .clr ∧
  ∀ rd : BankIx, AcceptedWhen (.clr rd) (fun s => RingValid s.build s.cfgN s.cfgQ) ∧
  ∀ (s : State) (snap : Snapshot) (prog : Progress), s.seq = .run (.clr rd) snap prog →
    s.CommitsTo rd snap.n.toNat (fun _ => 0) (exec (.clr rd) s)

/-- R183: the Draw step, the wait for entropy, and the commit. -/
def Obligations.GsmpDrawsRoundedSamples : Prop :=
  ReservedOutside .gsmp ∧
  ∀ rd : BankIx, AcceptedWhen (.gsmp rd) (fun s => RingValid s.build s.cfgN s.cfgQ ∧ s.gsigma ≠ 0) ∧
  ∀ (s : State) (snap : Snapshot) (prog : Progress), s.seq = .run (.gsmp rd) snap prog →
    (∀ z, prog.scratch.length < snap.n.toNat → s.offered snap.entSel = some z →
      exec (.gsmp rd) s = .next { s.taken snap.entSel with
        seq := .run (.gsmp rd) snap
          { scratch := prog.scratch ++ [modQ snap.q
              (rhe (snap.gmu.toInt * 2 ^ snap.frac.toNat + (snap.gsigma.toNat : Int) * z.toInt) (2 ^ (2 * snap.frac.toNat)))]
            pending := prog.pending } }) ∧
    (s.waits snap prog → exec (.gsmp rd) s = .next s) ∧
    (prog.scratch.length = snap.n.toNat →
      s.CommitsTo rd snap.n.toNat (fun k => prog.scratch.getD k 0) (exec (.gsmp rd) s))

/-- R190: the Draw step with the used thresholds written, the fault on an unwritten one, the wait, and the commit. -/
def Obligations.GcdtDrawsTableLookups : Prop :=
  ReservedOutside .gcdt ∧
  ∀ rd : BankIx, AcceptedWhen (.gcdt rd) (fun s => RingValid s.build s.cfgN s.cfgQ ∧ s.cdtLen.toNat ≤ 64) ∧
  ∀ (s : State) (snap : Snapshot) (prog : Progress), s.seq = .run (.gcdt rd) snap prog →
    (∀ (u : Word) (t : Nat → Word), prog.scratch.length < snap.n.toNat → s.offered snap.entSel = some u →
      (∀ j < snap.cdtLen.toNat, s.ram.word? (0x100 + 4 * j) = some (t j)) →
      exec (.gcdt rd) s = .next { s.taken snap.entSel with
        seq := .run (.gcdt rd) snap
          { scratch := prog.scratch ++ [modQ snap.q (snap.cdtOffset.toInt +
              (((Finset.range snap.cdtLen.toNat).filter fun j => (t j).toNat ≤ u.toNat).card : Int))]
            pending := prog.pending } }) ∧
    (∀ u : Word, prog.scratch.length < snap.n.toNat → s.offered snap.entSel = some u →
      (∃ j < snap.cdtLen.toNat, s.ram.word? (0x100 + 4 * j) = none) → exec (.gcdt rd) s = .fault .unwrittenRam) ∧
    (s.waits snap prog → exec (.gcdt rd) s = .next s) ∧
    (prog.scratch.length = snap.n.toNat →
      s.CommitsTo rd snap.n.toNat (fun k => prog.scratch.getD k 0) (exec (.gcdt rd) s))

/-- R192: with k = bitlen(2Q − 2), the one-word attempt for k ≤ 32, the low and the high word for k = 33, acceptance
and rejection of an attempt, the wait, and the commit. -/
def Obligations.UnifDrawsByRejection : Prop :=
  ReservedOutside .unif ∧
  ∀ rd : BankIx, AcceptedWhen (.unif rd) (fun s => RingValid s.build s.cfgN s.cfgQ) ∧
  ∀ (s : State) (snap : Snapshot) (prog : Progress) (k : Nat), s.seq = .run (.unif rd) snap prog →
    3 ≤ snap.q.toNat → 2 ^ (k - 1) ≤ 2 * snap.q.toNat - 2 → 2 * snap.q.toNat - 2 < 2 ^ k →
    (3 ≤ k ∧ k ≤ 33) ∧
    (∀ w : Word, prog.scratch.length < snap.n.toNat → s.offered snap.entSel = some w →
      let t := if k ≤ 32 then w.toNat % 2 ^ k else (w.toNat % 2) * 2 ^ 32 + (prog.pending.getD 0).toNat
      if 32 < k ∧ prog.pending = none then
        exec (.unif rd) s = .next { s.taken snap.entSel with
          seq := .run (.unif rd) snap { scratch := prog.scratch, pending := some w } }
      else
        exec (.unif rd) s = .next { s.taken snap.entSel with
          seq := .run (.unif rd) snap
            { scratch := if t ≤ 2 * snap.q.toNat - 2 then
                prog.scratch ++ [modQ snap.q ((t : Int) - (snap.q.toNat - 1))] else prog.scratch
              pending := if k ≤ 32 then prog.pending else none } }) ∧
    (s.waits snap prog → exec (.unif rd) s = .next s) ∧
    (prog.scratch.length = snap.n.toNat →
      s.CommitsTo rd snap.n.toNat (fun k => prog.scratch.getD k 0) (exec (.unif rd) s))

/-- R210, R214: one bit per word, by exact comparison against eighths of Q. -/
def Obligations.ReconCommitsTheThresholdBits : Prop :=
  ReservedOutside .recon ∧
  ∀ rd ra rb : BankIx, AcceptedWhen (.recon rd ra rb) (fun s => RingValid s.build s.cfgN s.cfgQ) ∧
  ∀ (s : State) (snap : Snapshot) (prog : Progress) (a b : Nat → Word), s.seq = .run (.recon rd ra rb) snap prog →
    s.holds ra snap.n.toNat a → s.holds rb snap.n.toNat b →
    s.CommitsTo rd snap.n.toNat
      (fun k =>
        let q := snap.q.toNat
        let v := (a k).toNat % q
        let r := (b k).toNat % q
        if (0 ≤ 8 * r ∧ 8 * r ≤ 2 * q) ∨ (4 * q ≤ 8 * r ∧ 8 * r ≤ 6 * q) then
          if q ≤ 8 * v ∧ 8 * v ≤ 5 * q then 1 else 0
        else
          if 3 * q ≤ 8 * v ∧ 8 * v ≤ 7 * q then 1 else 0)
      (exec (.recon rd ra rb) s)

/-! ### Where a command stops, and that it stops nowhere else -/

/-- R285: an unwritten source word of a command, an unwritten used threshold of a drawing GCDT, and an unwritten word that the
host of an idle block reads, are model faults; a command whose sources and used thresholds are written does not fault, so its
destination need not be. -/
def Obligations.UnwrittenReadsAreModelFaults : Prop :=
  (∀ (s : State) (i : Instr) (snap : Snapshot) (prog : Progress) (f : BankIx) (k : Nat), s.seq = .run i snap prog →
    f ∈ sources i → k < snap.n.toNat → s.bankWord? f k = none → exec i s = .fault .unwrittenRam) ∧
  (∀ (s : State) (rd : BankIx) (snap : Snapshot) (prog : Progress) (u : Word) (j : Nat),
    s.seq = .run (.gcdt rd) snap prog → prog.scratch.length < snap.n.toNat → s.offered snap.entSel = some u →
    j < snap.cdtLen.toNat → s.ram.word? (0x100 + 4 * j) = none → exec (.gcdt rd) s = .fault .unwrittenRam) ∧
  (∀ (s : State) (off : Nat) (rest : List Input), s.seq = .idle → WindowWord off → RamOffset s.build off →
    s.ram.word? off = none → s.inputs = .read (s.build.base + off) 4 :: rest → step s = .fault .unwrittenRam) ∧
  (∀ (s : State) (i : Instr) (snap : Snapshot) (prog : Progress), s.seq = .run i snap prog →
    (∀ f ∈ sources i, ∀ k < snap.n.toNat, s.bankWord? f k ≠ none) →
    ((∃ rd, i = .gcdt rd) → ∀ j < snap.cdtLen.toNat, s.ram.word? (0x100 + 4 * j) ≠ none) → ∀ r, exec i s ≠ .fault r)

/-- Once accepted, a command whose sources and thresholds are written always has a next state, and no error is raised
(30_encoding.md §4, 60_exceptions.md §1). -/
def Obligations.AcceptedCommandsNeverFail : Prop :=
  ∀ (s : State) (i : Instr) (snap : Snapshot) (prog : Progress), s.seq = .run i snap prog →
    (∀ f ∈ sources i, ∀ k < snap.n.toNat, s.bankWord? f k ≠ none) →
    ((∃ rd, i = .gcdt rd) → ∀ j < snap.cdtLen.toNat, s.ram.word? (0x100 + 4 * j) ≠ none) →
    ∃ t, exec i s = .next t ∧ t.err = s.err ∧ t.errCode = s.errCode ∧ t.errInfo = s.errInfo

/-- No meaning refuses, and the only fault of a meaning is a running command's read of a RAM word it needs and nothing has
written (60_exceptions.md §1). -/
def Obligations.CommandsStopOnlyOnUnwrittenRam : Prop :=
  ∀ (s : State) (i : Instr),
    (∀ r, exec i s ≠ .refused r) ∧
    (∀ r, exec i s = .fault r → r = .unwrittenRam ∧ ∃ j snap prog, s.seq = .run j snap prog ∧
      ((∃ f ∈ sources i, ∃ k < snap.n.toNat, s.bankWord? f k = none) ∨
        ((∃ rd, i = .gcdt rd) ∧ ∃ j < snap.cdtLen.toNat, s.ram.word? (0x100 + 4 * j) = none)))

/-- R82: an access in the window that is not one 32-bit word at a multiple of 4 has no step, and every other access in the
window is a read or write of that word. -/
def Obligations.OnlyWholeWordsAreAccessed : Prop :=
  ∀ (s : State) (addr size : Nat) (v : Word) (rest : List Input) (e : Input),
    (e = .read addr size ∨ e = .write addr size v) → s.inputs = e :: rest →
    s.build.base ≤ addr → addr < s.build.base + 2 ^ 18 →
    ((size ≠ 4 ∨ (addr - s.build.base) % 4 ≠ 0) → step s = .refused .notOneWord) ∧
    (size = 4 → (addr - s.build.base) % 4 = 0 →
      step s = if e = .read addr size then { s with inputs := rest }.memRead (addr - s.build.base)
        else { s with inputs := rest }.memWrite (addr - s.build.base) v)

/-- An access to an address outside the window is a fault, whatever its size: the model's choice for addresses where the block
has nothing (log entry 6; 20_memory.md §2). -/
def Obligations.AccessOutsideTheWindowFaults : Prop :=
  ∀ (s : State) (addr size : Nat) (v : Word) (rest : List Input) (e : Input),
    (e = .read addr size ∨ e = .write addr size v) → s.inputs = e :: rest →
    (addr < s.build.base ∨ s.build.base + 2 ^ 18 ≤ addr) → step s = .fault .outsideWindow

/-! ### Errors and the interrupt -/

/-- R231: the first error since ERR was last 0 is recorded, and nothing else changes; with the number of each error
(60_exceptions.md §1). -/
def Obligations.FirstErrorIsRecorded : Prop :=
  (∀ (s : State) (c : ErrCode) (info : Word),
    (s.err = false → s.raiseError c info = { s with errCode := c.code, errInfo := info, err := true }) ∧
    (s.err = true → s.raiseError c info = s)) ∧
  ∀ (s : State) (info : Word), s.err = false →
    (s.raiseError .cfg info).errCode = 1 ∧ (s.raiseError .opcode info).errCode = 2 ∧
    (s.raiseError .bank info).errCode = 3 ∧ (s.raiseError .busy info).errCode = 4 ∧
    (s.raiseError .rsvd info).errCode = 5 ∧ (s.raiseError .hostAcc info).errCode = 6 ∧
    (s.raiseError .entOvf info).errCode = 7

/-- While ERR stays 1 no step changes the recorded error, and ERRCODE records only codes 1 to 7 (60_exceptions.md §1, §3). -/
def Obligations.RecordedErrorStaysUntilCleared : Prop :=
  ∀ s t : State, step s = .next t → t.err = true →
    (s.err = true → t.errCode = s.errCode ∧ t.errInfo = s.errInfo) ∧
    (s.err = false → 1 ≤ t.errCode.toNat ∧ t.errCode.toNat ≤ 7)

/-- R243, and the same of ERR (60_exceptions.md §1, §3, §4): DONE is set by the sequencer step that completes a command and by
nothing else, and only a STATUS write with bit 1 and a reset clear it; ERR is set only by a host access, and only a STATUS write
with bit 2 and a reset clear it. So accepting a command clears neither. -/
def Obligations.DoneAndErrChangeOnlyByTheirEvents : Prop :=
  ∀ s t : State, step s = .next t →
    (s.sequencerMoves → s.seq ≠ .idle → t.seq = .idle → t.done = true) ∧
    (s.done = false → t.done = true → s.sequencerMoves ∧ s.seq ≠ .idle ∧ t.seq = .idle) ∧
    (s.done = true → t.done = false → s.acknowledges 1 ∨ s.resetMoves) ∧
    (s.err = false → t.err = true →
      ∃ addr rest, s.inputs = .read addr 4 :: rest ∨ ∃ v, s.inputs = .write addr 4 v :: rest) ∧
    (s.err = true → t.err = false → s.acknowledges 2 ∨ s.resetMoves)

/-- R241: writing bit 2 to STATUS clears ERR, ERRCODE and ERRINFO, the same write may clear DONE with bit 1, a 0 bit leaves its
flag as it was, and a later error is recorded afresh. -/
def Obligations.AcknowledgeClearsTheRecordedError : Prop :=
  ∀ (s : State) (v : Word) (rest : List Input), s.inputs = .write (s.build.base + 0x00C) 4 v :: rest →
    ∃ t, step s = .next t ∧
      (v.getLsbD 2 = true → t = { s with
        inputs := rest
        err := false
        errCode := 0
        errInfo := 0
        done := if v.getLsbD 1 then false else s.done }) ∧
      (v.getLsbD 2 = false → t = { s with inputs := rest, done := if v.getLsbD 1 then false else s.done }) ∧
      (v.getLsbD 2 = true → ∀ (c : ErrCode) (info : Word),
        (t.raiseError c info).errCode = c.code ∧ (t.raiseError c info).errInfo = info)

/-- R245: irq is a function of four bits in every state. -/
def Obligations.IrqIsALevelOfFourBits : Prop :=
  ∀ s : State, s.irq = true ↔ (s.done = true ∧ s.ieDone = true) ∨ (s.err = true ∧ s.ieErr = true)

/-- R236, R89: while BUSY every host read or write of a CDT or bank word is refused with ERR_HOSTACC and the offset; a read
returns 0 and a write stores nothing; no other access raises that error. -/
def Obligations.RamIsRefusedWhileBusy : Prop :=
  (∀ (s : State) (off : Nat) (v : Word) (rest : List Input), s.seq ≠ .idle → off < 2 ^ 18 → RamOffset s.build off →
    (s.inputs = .read (s.build.base + off) 4 :: rest →
      step s = .next { { s with inputs := rest }.raiseError .hostAcc (BitVec.ofNat 32 off) with rdata := some 0 }) ∧
    (s.inputs = .write (s.build.base + off) 4 v :: rest →
      step s = .next ({ s with inputs := rest }.raiseError .hostAcc (BitVec.ofNat 32 off)))) ∧
  (∀ (s t : State) (off : Nat) (v : Word), off % 4 = 0 → (s.seq = .idle ∨ ¬ RamOffset s.build off) →
    s.err = false → s.errCode ≠ 6 → (s.memRead off = .next t ∨ s.memWrite off v = .next t) → t.errCode ≠ 6)

/-- R237, R51: a push appends while the FIFO has room, running or idle, and is dropped with ERR_ENT_OVF when it has none; a read
of ENT_PUSH returns 0 and takes nothing. -/
def Obligations.PushFillsTheFifoOrOverflows : Prop :=
  ∀ (s : State) (w : Word) (rest : List Input),
    (s.inputs = .write (s.build.base + 0x038) 4 w :: rest →
      (s.fifo.length < s.build.entDepth → step s = .next { s with inputs := rest, fifo := s.fifo ++ [w] }) ∧
      (s.build.entDepth ≤ s.fifo.length → step s = .next ({ s with inputs := rest }.raiseError .entOvf w))) ∧
    (s.inputs = .read (s.build.base + 0x038) 4 :: rest → step s = .next { s with inputs := rest, rdata := some 0 })

/-! ### Resets -/

/-- R272: a write to CTRL with bit 3 set, from every state; afterwards irq is 0 and STATUS reads 8. -/
def Obligations.SoftResetKeepsOnlyRam : Prop :=
  ∀ (s : State) (v : Word) (rest : List Input), s.inputs = .write (s.build.base + 0x008) 4 v :: rest →
    v.getLsbD 3 = true →
    ∃ t, step s = .next t ∧
      t = { State.resetOf s.build with ram := s.ram, entPort := s.entPort, rdata := s.rdata, inputs := rest } ∧
      t.irq = false ∧ t.entReady = false ∧ (s.build.Legal → t.readReg 0x00C = 8)

/-- Hard reset from every state empties RAM, the FIFO and the sequencer and gives every register its reset value
(70_reset_and_hazards.md §1); that it keeps the port's offer and the moves to come is the model's choice (log entry 5). -/
def Obligations.HardResetLeavesTheResetState : Prop :=
  ∀ (s : State) (rest : List Input), s.inputs = .hardReset :: rest →
    step s = .next { State.resetOf s.build with entPort := s.entPort, inputs := rest }

/-- R64: hard reset of every legal build gives every register its reset value, as the host reads it, empties the FIFO and the
sequencer and leaves no RAM word written; the machine starts in such a state. -/
def Obligations.ResetRegistersRead : Prop :=
  (∀ (s : State) (rest : List Input), s.build.Legal → s.inputs = .hardReset :: rest →
    ∃ t, step s = .next t ∧ t.build = s.build ∧ t.ReadsReset) ∧
  State.reset.ReadsReset ∧ State.reset.readReg 0x01C = 0x400

/-! ### Host accesses -/

/-- The host's read of a register returns the register, idle or running, and changes nothing else; and what each of the sixteen
registers reads (10_state.md §3, 20_memory.md §4). -/
def Obligations.RegisterReadsReturnTheRegister : Prop :=
  ∀ s : State,
    (∀ off < 0x40, off % 4 = 0 → s.memRead off = .next { s with rdata := some (s.readReg off) }) ∧
    (∀ off < 0x40, off % 4 = 0 → ∀ rest, s.inputs = .read (s.build.base + off) 4 :: rest →
      step s = .next { s with inputs := rest, rdata := some (s.readReg off) }) ∧
    s.readReg 0x000 = 0x524C5745 ∧ s.readReg 0x004 = capsWord s.build ∧
    (s.readReg 0x008).getLsbD 0 = s.ieDone ∧ (s.readReg 0x008).getLsbD 1 = s.ieErr ∧
    (s.readReg 0x008).getLsbD 2 = s.entSel ∧ s.readReg 0x008 >>> 3 = 0 ∧
    (s.readReg 0x00C).getLsbD 0 = s.busy ∧ (s.readReg 0x00C).getLsbD 1 = s.done ∧ (s.readReg 0x00C).getLsbD 2 = s.err ∧
    (s.readReg 0x00C).getLsbD 3 = s.cfgValid ∧ (s.readReg 0x00C).getLsbD 4 = s.entWait ∧ s.readReg 0x00C >>> 5 = 0 ∧
    s.readReg 0x010 = s.cmd ∧ (s.readReg 0x014).toNat = s.errCode.toNat ∧ s.readReg 0x018 = s.errInfo ∧
    s.readReg 0x01C = s.cfgN ∧ s.readReg 0x020 = s.cfgQ ∧ (s.readReg 0x024).toNat = s.frac.toNat ∧
    s.readReg 0x028 = s.gmu ∧ s.readReg 0x02C = s.gsigma ∧ (s.readReg 0x030).toNat = s.cdtLen.toNat ∧
    s.readReg 0x034 = s.cdtOffset ∧ s.readReg 0x038 = 0 ∧ s.readReg 0x03C = BitVec.ofNat 32 s.fifo.length

/-- A word the host of an idle block writes to RAM reads back, and every other RAM word reads as before (20_memory.md §4, §6);
and word i of bank f, as a command reads it, is the word the host reads at its place in the bank window (20_memory.md §3). -/
def Obligations.RamWriteReadsBack : Prop :=
  (∀ (s : State) (f : BankIx) (i : Nat) (w : Word), s.seq = .idle → f.toNat < s.build.nb → i < s.build.nmax →
    s.bankWord? f i = some w →
    s.memRead (0x10000 + 4 * (f.toNat * s.build.nmax + i)) = .next { s with rdata := some w }) ∧
  ∀ (s : State) (off off' : Nat) (v w : Word) (rest : List Input), s.seq = .idle →
    off < 2 ^ 18 → off' < 2 ^ 18 → RamOffset s.build off → RamOffset s.build off' →
    (off' ≠ off → s.ram.word? off' = some w) → (off' = off → w = v) →
    s.inputs = .write (s.build.base + off) 4 v :: .read (s.build.base + off') 4 :: rest →
    ∃ t, runSteps 2 s = .next t ∧ t.rdata = some w ∧
      (∀ a, a < off ∨ off + 4 ≤ a → Memory.byte? t.ram a = Memory.byte? s.ram a) ∧
      { t with ram := s.ram, rdata := s.rdata } = { s with inputs := rest }

/-- R88: reserved offsets read 0 and ignore writes, reserved register bits read 0 and ignore writes, and writes to read-only
registers are ignored; none of these raises an error. -/
def Obligations.ReservedPlacesReadZeroAndIgnoreWrites : Prop :=
  (∀ (s : State) (off : Nat) (v : Word), off < 2 ^ 18 → off % 4 = 0 → 0x40 ≤ off → ¬ RamOffset s.build off →
    s.memRead off = .next { s with rdata := some 0 } ∧ s.memWrite off v = .next s) ∧
  (∀ (s : State) (v : Word), ∀ off ∈ [0x000, 0x004, 0x014, 0x018, 0x03C], s.memWrite off v = .next s) ∧
  (∀ s : State, s.build.Legal → s.fifo.length ≤ s.build.entDepth →
    (s.readReg 0x03C).toNat = s.fifo.length ∧ (s.readReg 0x03C).toNat < 2 ^ 16) ∧
  (∀ (s : State) (v : Word),
    (s.readReg 0x004).extractLsb' 5 3 = 0 ∧ (s.readReg 0x004).extractLsb' 13 3 = 0 ∧
      (s.readReg 0x008).toNat < 8 ∧ (s.readReg 0x00C).toNat < 32 ∧ (s.readReg 0x014).toNat < 16 ∧
      (s.readReg 0x024).toNat < 32 ∧ (s.readReg 0x030).toNat < 128 ∧
      s.memWrite 0x008 v = s.memWrite 0x008 (v &&& 0x1F) ∧ s.memWrite 0x00C v = s.memWrite 0x00C (v &&& 0x6) ∧
      s.memWrite 0x024 v = s.memWrite 0x024 (v &&& 0x1F) ∧ s.memWrite 0x030 v = s.memWrite 0x030 (v &&& 0x7F))

/-- Reads have no side effects: but for a refused RAM access, a host read changes nothing that anything reads, and repeating it
at once returns the same word (20_memory.md §4). -/
def Obligations.ReadsHaveNoSideEffects : Prop :=
  ∀ (s t : State) (off : Nat), (s.seq = .idle ∨ s.build.isRam off = false) → s.memRead off = .next t →
    { t with rdata := s.rdata } = s ∧ t.memRead off = .next t

/-- A write to a configuration register stores its bits, changes nothing else, and reads back (10_state.md §3). -/
def Obligations.ConfigurationRegistersStoreWhatIsWritten : Prop :=
  ∀ (s : State) (v : Word),
    s.memWrite 0x01C v = .next { s with cfgN := v } ∧ ({ s with cfgN := v }).readReg 0x01C = v ∧
    s.memWrite 0x020 v = .next { s with cfgQ := v } ∧ ({ s with cfgQ := v }).readReg 0x020 = v ∧
    s.memWrite 0x028 v = .next { s with gmu := v } ∧ ({ s with gmu := v }).readReg 0x028 = v ∧
    s.memWrite 0x02C v = .next { s with gsigma := v } ∧ ({ s with gsigma := v }).readReg 0x02C = v ∧
    s.memWrite 0x034 v = .next { s with cdtOffset := v } ∧ ({ s with cdtOffset := v }).readReg 0x034 = v ∧
    (∃ t, s.memWrite 0x024 v = .next t ∧ { t with frac := s.frac } = s ∧ t.readReg 0x024 = v &&& 0x1F) ∧
    (∃ t, s.memWrite 0x030 v = .next t ∧ { t with cdtLen := s.cdtLen } = s ∧ t.readReg 0x030 = v &&& 0x7F)

/-- The fields of CTRL (10_state.md §3). Without a soft reset, bits 0 to 2 are stored and read back, bit 4 empties the FIFO, bits 3 and 4
read 0, and nothing else changes. -/
def Obligations.ControlRegisterFields : Prop :=
  ∀ (s : State) (v : Word),
    (v.getLsbD 3 = true → s.memWrite 0x008 v = .next s.softReset ∧ s.softReset.readReg 0x008 = 0) ∧
    (v.getLsbD 3 = false → ∃ t, s.memWrite 0x008 v = .next t ∧ t.readReg 0x008 = v &&& 0x7 ∧
      t = { s with
        ieDone := v.getLsbD 0
        ieErr := v.getLsbD 1
        entSel := v.getLsbD 2
        fifo := if v.getLsbD 4 then [] else s.fifo })

/-- R38: CAPS reports the build, in every legal build; the reference build reads 0x4010080A. -/
def Obligations.CapsReportsTheBuild : Prop :=
  (∀ (s : State) (b : Build), s.build = b → b.Legal →
    ((s.readReg 0x004).extractLsb' 0 5).toNat = b.log2Nmax ∧ (s.readReg 0x004).extractLsb' 5 3 = 0 ∧
      ((s.readReg 0x004).extractLsb' 8 5).toNat = b.nb ∧ (s.readReg 0x004).extractLsb' 13 3 = 0 ∧
      ((s.readReg 0x004).extractLsb' 16 8).toNat = b.entDepth ∧ (s.readReg 0x004).extractLsb' 24 8 = 64) ∧
  (∀ s t : State, step s = .next t → t.build = s.build) ∧
  State.reset.readReg 0x004 = 0x4010080A

/-- R62, with the other bits of STATUS: BUSY, DONE, ERR, CFG_VALID and ENT_WAIT in bits 0 to 4 (10_state.md §3). -/
def Obligations.StatusBitsSayWhatTheyStandFor : Prop :=
  ∀ s : State,
    ((s.readReg 0x00C).getLsbD 0 = true ↔ s.seq ≠ .idle) ∧ ((s.readReg 0x00C).getLsbD 1 = s.done) ∧
    ((s.readReg 0x00C).getLsbD 2 = s.err) ∧
    ((s.readReg 0x00C).getLsbD 3 = true ↔ RingValid s.build s.cfgN s.cfgQ) ∧
    ((s.readReg 0x00C).getLsbD 4 = true ↔
      ∃ i snap prog, s.seq = .run i snap prog ∧ ((∃ rd, i = .gsmp rd) ∨ (∃ rd, i = .gcdt rd) ∨ (∃ rd, i = .unif rd)) ∧
        prog.scratch.length < snap.n.toNat ∧
        (snap.entSel = false → s.fifo = []) ∧ (snap.entSel = true → s.entPort = none)) ∧
    (s.readReg 0x00C) >>> 5 = 0

/-! ### The whole machine -/

/-- SEQ changes only by acceptance, by a Draw, by completion, which sets DONE, and by a reset (10_state.md §5). -/
def Obligations.SequencerChangesOnlyByItsStepsAndResets : Prop :=
  ∀ s t : State, step s = .next t → t.seq ≠ s.seq →
    (∃ w rest i, s.inputs = .write (s.build.base + 0x010) 4 w :: rest ∧ s.seq = .idle ∧ decode w = .ok i ∧
      t.cmd = w ∧ t.seq = .run i s.snapshot { scratch := [], pending := none } ∧ t.done = s.done) ∨
    (∃ i snap prog prog', s.seq = .run i snap prog ∧ isSampler i = true ∧ s.sequencerMoves ∧
      prog.scratch.length < snap.n.toNat ∧ s.offered snap.entSel ≠ none ∧ t.seq = .run i snap prog') ∨
    (∃ i snap prog, s.seq = .run i snap prog ∧ s.sequencerMoves ∧
      (isSampler i = true → prog.scratch.length = snap.n.toNat) ∧ t.seq = .idle ∧ t.done = true) ∨
    (t.seq = .idle ∧ ∃ rest, s.inputs = .hardReset :: rest ∨
      ∃ v, s.inputs = .write (s.build.base + 0x008) 4 v :: rest ∧ v.getLsbD 3 = true)

/-- No step changes a byte of RAM but a hard reset, the host's write of its word on an idle block, and a completing command's
commit to words 0 to N − 1 of its destination bank (10_state.md §1). -/
def Obligations.RamChangesOnlyByHostWritesAndCommits : Prop :=
  ∀ (s t : State) (a : Nat), step s = .next t →
    Memory.byte? t.ram a = Memory.byte? s.ram a ∨
    (∃ rest, s.inputs = .hardReset :: rest) ∨
    (∃ off v rest, s.seq = .idle ∧ s.inputs = .write (s.build.base + off) 4 v :: rest ∧ s.build.isRam off = true ∧
      off ≤ a ∧ a < off + 4) ∨
    (∃ i snap prog rd, s.seq = .run i snap prog ∧ s.sequencerMoves ∧ destination? i = some rd ∧ t.seq = .idle ∧
      t.done = true ∧ s.build.bankOffset rd 0 ≤ a ∧ a < s.build.bankOffset rd 0 + 4 * snap.n.toNat)

/-- R99: no entropy word is consumed except by a Draw step of a sampler command: the FIFO changes only by a push at its tail, a
flush or reset, and a Draw at its head; the port's word only by the entropy source and by a Draw. The FIFO offers its head and
the port its word, and ent_ready is 1 exactly while a sampler needs a word of the port (20_memory.md §1, 41_sampler.md §1). -/
def Obligations.EntropyIsConsumedOnlyByDraws : Prop :=
  (∀ s : State, s.offered false = s.fifo.head? ∧ s.offered true = s.entPort ∧
    (s.entReady = true ↔ s.drawsFrom true)) ∧
  ∀ s t : State, step s = .next t →
    (t.fifo = s.fifo ∨
      (∃ w rest, s.inputs = .write (s.build.base + 0x038) 4 w :: rest ∧ t.fifo = s.fifo ++ [w]) ∨
      (t.fifo = [] ∧ ∃ rest, s.inputs = .hardReset :: rest ∨
        ∃ v, s.inputs = .write (s.build.base + 0x008) 4 v :: rest ∧ (v.getLsbD 3 = true ∨ v.getLsbD 4 = true)) ∨
      (∃ u, s.fifo = u :: t.fifo ∧ s.drawsFrom false ∧ s.sequencerMoves)) ∧
    (t.entPort = s.entPort ∨
      (∃ rest, s.inputs = .entropy t.entPort :: rest) ∨
      (t.entPort = none ∧ s.drawsFrom true ∧ s.sequencerMoves))

/-- The invariant holds after reset, in every legal build. -/
def Obligations.InvariantHoldsAtReset : Prop :=
  State.reset.Inv ∧ ∀ b : Build, b.Legal → (State.resetOf b).Inv

/-- Every step keeps the invariant: RAM keeps its canonical form, holds only existing words and only whole words; the FIFO never
overflows; ERRCODE stays a legal code and 0 while ERR is 0; CMD is the running command's word; what runs is valid; and every
coefficient produced lies in [0, Q). -/
def Obligations.EveryStepKeepsTheInvariant : Prop :=
  ∀ s t : State, s.Inv → step s = .next t → t.Inv

/-! ### Completion -/

/-- A command that takes no entropy, written to CMD of an idle block under a valid configuration with its banks and sources in
order, is complete two steps later (70_reset_and_hazards.md §4). That the sequencer's step comes next when no other move is
listed is the model's choice (log entry 1). -/
def Obligations.ArithmeticCommandsCompleteInTwoSteps : Prop :=
  ∀ (s : State) (i : Instr), s.seq = .idle → isSampler i = false → i.wf s.build.nb = true →
    (i ≠ .nop → RingValid s.build s.cfgN s.cfgQ) →
    (∀ f ∈ sources i, ∀ k < s.cfgN.toNat, s.bankWord? f k ≠ none) →
    s.inputs = [.write (s.build.base + 0x010) 4 (encode i)] →
    ∃ t, runSteps 2 s = .next t ∧ t.seq = .idle ∧ t.done = true ∧ t.cmd = encode i ∧ t.err = s.err ∧
      (∀ rd, destination? i = some rd → ∀ k < s.cfgN.toNat, t.bankWord? rd k ≠ none)

/-- GSMP with N words in the FIFO completes in N draws and one commit, takes exactly those N words, and coefficient k is the
rounded sample of word k (41_sampler.md §1, §2). That the sequencer moves when no other move is listed is the model's choice (log
entry 1). -/
def Obligations.GsmpFillsTheBankFromTheFifo : Prop :=
  ∀ (s : State) (rd : BankIx) (snap : Snapshot) (zs rest : List Word),
    s.seq = .run (.gsmp rd) snap { scratch := [], pending := none } → s.inputs = [] → snap.entSel = false →
    s.fifo = zs ++ rest → zs.length = snap.n.toNat →
    { s with fifo := rest }.CommitsTo rd snap.n.toNat
      (fun k => modQ snap.q (rhe (snap.gmu.toInt * 2 ^ snap.frac.toNat + (snap.gsigma.toNat : Int) * (zs.getD k 0).toInt)
        (2 ^ (2 * snap.frac.toNat))))
      (runSteps (snap.n.toNat + 1) s)

/-- GCDT with N words in the FIFO and its thresholds written completes in N draws and one commit, takes exactly those N words,
and coefficient k is the count for word k (41_sampler.md §1, §3). That the sequencer moves when no other move is listed is the
model's choice (log entry 1). -/
def Obligations.GcdtFillsTheBankFromTheFifo : Prop :=
  ∀ (s : State) (rd : BankIx) (snap : Snapshot) (us rest : List Word) (t : Nat → Word),
    s.seq = .run (.gcdt rd) snap { scratch := [], pending := none } → s.inputs = [] → snap.entSel = false →
    s.fifo = us ++ rest → us.length = snap.n.toNat →
    (∀ j < snap.cdtLen.toNat, s.ram.word? (0x100 + 4 * j) = some (t j)) →
    { s with fifo := rest }.CommitsTo rd snap.n.toNat
      (fun k => modQ snap.q (snap.cdtOffset.toInt +
        (((Finset.range snap.cdtLen.toNat).filter fun j => (t j).toNat ≤ (us.getD k 0).toNat).card : Int)))
      (runSteps (snap.n.toNat + 1) s)

/-- Two runs of a sampler that agree on the snapshot and progress, the CDT words and the entropy words offered, give the same
result, whatever else the two states hold (41_sampler.md §5). -/
def Obligations.SamplersAreDeterminedByTheirEntropy : Prop :=
  ∀ (s s' t : State) (i : Instr) (snap : Snapshot) (prog : Progress) (rd : BankIx) (m : Nat),
    isSampler i = true → destination? i = some rd → s.seq = .run i snap prog → s'.seq = s.seq →
    s'.fifo = s.fifo → s'.entPort = s.entPort → s'.inputs = s.inputs →
    (∀ e ∈ s.inputs, e = .sequencer ∨ ∃ o, e = .entropy o) →
    (∀ j < snap.cdtLen.toNat, s'.ram.word? (0x100 + 4 * j) = s.ram.word? (0x100 + 4 * j)) →
    runSteps m s = .next t →
    ∃ t', runSteps m s' = .next t' ∧ t'.seq = t.seq ∧ t'.fifo = t.fifo ∧ t'.entPort = t.entPort ∧
      (t.seq = .idle → ∀ k < snap.n.toNat, t'.bankWord? rd k = t.bankWord? rd k ∧ t.bankWord? rd k ≠ none)

/-! ### Arithmetic -/

/-- R13: every reduction mod Q is the residue in [0, Q), for negative operands too. -/
def Obligations.ResidueIsTheFloorModulo : Prop :=
  ∀ (q : Word) (a : Int), q ≠ 0 →
    (modQ q a).toNat < q.toNat ∧ (∃ m : Int, a = m * q.toNat + (modQ q a).toNat) ∧
      ∀ r : Nat, r < q.toNat → (∃ m : Int, a = m * q.toNat + r) → (modQ q a).toNat = r

/-- R184: rounding half to even, and that a tie needs F ≥ 1. -/
def Obligations.RoundingIsHalfToEven : Prop :=
  ∀ a d q rho : Int, 0 < d → a = q * d + rho → 0 ≤ rho → rho < d →
    (2 * rho > d → rhe a d = q + 1) ∧ (2 * rho < d → rhe a d = q) ∧
    (2 * rho = d → (q % 2 = 0 → rhe a d = q) ∧ (q % 2 ≠ 0 → rhe a d = q + 1)) ∧
    (∀ F : Nat, d = 2 ^ (2 * F) → 2 * rho = d → 1 ≤ F)

/-- GSMP's rounding is to a nearest integer, and to the even one of two (41_sampler.md §2). -/
def Obligations.RoundingIsToANearestInteger : Prop :=
  ∀ a d : Int, 0 < d →
    (∀ m : Int, |a - rhe a d * d| ≤ |a - m * d|) ∧
    (∀ m : Int, m ≠ rhe a d → |a - m * d| = |a - rhe a d * d| → rhe a d % 2 = 0)

/-- R166: for residue polynomials, the zero polynomial is ADD's identity, NEG gives the inverse, and ADD is commutative and
associative. -/
def Obligations.AdditionIsAnAbelianGroup : Prop :=
  ∀ (n : Nat) (q : Word) (a b c : Nat → Word), 3 ≤ q.toNat →
    (∀ k < n, (a k).toNat < q.toNat) → (∀ k < n, (b k).toNat < q.toNat) → (∀ k < n, (c k).toNat < q.toNat) →
    ∀ k < n,
      polyAdd q a polyZero k = a k ∧ polyAdd q a (polyNeg q a) k = polyZero k ∧ polyAdd q a b k = polyAdd q b a k ∧
        polyAdd q (polyAdd q a b) c k = polyAdd q a (polyAdd q b c) k

/-- R147: the product is commutative, associative and distributes over addition, 1 is its identity, and monomials multiply with
x^N = −1. -/
def Obligations.MultiplicationIsTheQuotientRings : Prop :=
  ∀ (n : Nat) (q : Word) (a b c : Nat → Word), 3 ≤ q.toNat → 1 ≤ n →
    (∀ k < n, (a k).toNat < q.toNat) → (∀ k < n, (b k).toNat < q.toNat) → (∀ k < n, (c k).toNat < q.toNat) →
    ∀ k < n,
      polyMul n q a b k = polyMul n q b a k ∧
      polyMul n q (polyMul n q a b) c k = polyMul n q a (polyMul n q b c) k ∧
      polyMul n q a (polyAdd q b c) k = polyAdd q (polyMul n q a b) (polyMul n q a c) k ∧
      polyMul n q a (monomial 0) k = a k ∧
      ∀ i < n, ∀ j < n, polyMul n q (monomial i) (monomial j) k =
        if i + j < n then monomial (i + j) k else modQ q (-((monomial (i + j - n) k).toNat : Int))

/-- R145: MUL's result is the source's procedure: the full product reduced mod Q, its terms of degree N and more folded down
with their sign changed, and reduced again. -/
def Obligations.ProductIsTheFoldedFullProduct : Prop :=
  ∀ (n : Nat) (q : Word) (a b : Nat → Word), q ≠ 0 → 1 ≤ n →
    fullProduct n q a b (2 * n - 1) = 0 ∧
    ∀ k < n,
      polyMul n q a b k = modQ q (fullProduct n q a b k % q.toNat - fullProduct n q a b (k + n) % q.toNat) ∧
      polyMul n q a b k = modQ q (fullProduct n q a b k - fullProduct n q a b (k + n))

/-- R211, R212: the comparison with eighths of Q is exact, for odd Q no coefficient lies on an inner boundary, and the integer
limits of the intervals, in general and for the reference Q and Q = 17. -/
def Obligations.ReconciliationLimits : Prop :=
  (∀ (q : Word) (a b x : Nat),
    inEighths q a b x = true ↔ ((a : ℚ) / 8 * q.toNat ≤ x ∧ (x : ℚ) ≤ (b : ℚ) / 8 * q.toNat)) ∧
  (∀ (q : Word) (x m : Nat), q.toNat % 2 = 1 → 1 ≤ m → m ≤ 7 → 8 * x ≠ m * q.toNat) ∧
  (∀ (q : Word) (x : Nat), q.toNat % 2 = 1 →
    (selectLow q x = true ↔ x ≤ 2 * q.toNat / 8 ∨ ((4 * q.toNat + 7) / 8 ≤ x ∧ x ≤ 6 * q.toNat / 8)) ∧
    (inEighths q 1 5 x = true ↔ (q.toNat + 7) / 8 ≤ x ∧ x ≤ 5 * q.toNat / 8) ∧
    (inEighths q 3 7 x = true ↔ (3 * q.toNat + 7) / 8 ≤ x ∧ x ≤ 7 * q.toNat / 8)) ∧
  (∀ x : Nat,
    (selectLow 0xFFFFFFFF x = true ↔ x ≤ 1073741823 ∨ (2147483648 ≤ x ∧ x ≤ 3221225471)) ∧
    (inEighths 0xFFFFFFFF 1 5 x = true ↔ 536870912 ≤ x ∧ x ≤ 2684354559) ∧
    (inEighths 0xFFFFFFFF 3 7 x = true ↔ 1610612736 ≤ x ∧ x ≤ 3758096383)) ∧
  (∀ x : Nat,
    (selectLow 17 x = true ↔ x ≤ 4 ∨ (9 ≤ x ∧ x ≤ 12)) ∧ (inEighths 17 1 5 x = true ↔ 3 ≤ x ∧ x ≤ 10) ∧
    (inEighths 17 3 7 x = true ↔ 7 ≤ x ∧ x ≤ 14))
end

