-- ==== Sys2Proof/Laws/Arith.lean ====
section
/-! SUPPORT. What the arithmetic of the commands computes: residues, the coefficient of a product as a double sum, comparisons
against eighths of Q, and counting thresholds. -/

namespace Sys2Proof.Machine

/-- A residue is the floor-modulo of its integer (R13). -/
theorem toNat_modQ {q : Word} (a : Int) (h : 0 < q.toNat) : ((modQ q a).toNat : Int) = a % q.toNat := by
  have h1 := Int.emod_nonneg a (b := q.toNat) (by omega)
  have h2 := Int.emod_lt_of_pos a (b := q.toNat) (by omega)
  have := q.isLt
  unfold modQ
  rw [BitVec.toNat_ofNat, Nat.mod_eq_of_lt (by omega)]
  omega

theorem modQ_lt {q : Word} (a : Int) (h : 0 < q.toNat) : (modQ q a).toNat < q.toNat := by
  have h1 := toNat_modQ a h
  have h2 := Int.emod_lt_of_pos a (b := q.toNat) (by omega)
  omega

theorem modQ_congr {q : Word} {a b : Int} (h : a % q.toNat = b % q.toNat) : modQ q a = modQ q b := by
  unfold modQ
  rw [h]

theorem modQ_of_lt {q a : Word} (h : a.toNat < q.toNat) : modQ q a.toNat = a := by
  apply BitVec.eq_of_toNat_eq
  have := toNat_modQ (q := q) a.toNat (by omega)
  rw [Int.emod_eq_of_lt (by omega) (by omega)] at this
  omega

theorem res_of_lt {q a : Word} (h : a.toNat < q.toNat) : res q a = a.toNat := Nat.mod_eq_of_lt h

theorem res_modQ {q : Word} (a : Int) (h : 0 < q.toNat) : (res q (modQ q a) : Int) = a % q.toNat := by
  rw [res_of_lt (modQ_lt a h), toNat_modQ a h]

theorem sum_map_range (n : Nat) (f : Nat → Int) : ((List.range n).map f).sum = ∑ i ∈ Finset.range n, f i := by
  induction n with
  | zero => simp
  | succ n ih => rw [List.range_succ, List.map_append, List.sum_append, ih, Finset.sum_range_succ]; simp

/-- For each i < n the terms of R144's inner loop come from one j only. -/
theorem inner_sum (n k i : Nat) (hi : i < n) (hk : k < n) (x y : Nat → Int) :
    (∑ j ∈ Finset.range n, if i + j = k then x i * y j else if i + j = k + n then -(x i * y j) else 0) =
      if i ≤ k then x i * y (k - i) else -(x i * y (k + n - i)) := by
  by_cases h : i ≤ k
  · rw [if_pos h, Finset.sum_eq_single (k - i)]
    · rw [if_pos (by omega)]
    · intro j hj hne
      have := Finset.mem_range.1 hj
      rw [if_neg (by omega), if_neg (by omega)]
    · intro hh
      exact absurd (Finset.mem_range.2 (by omega)) hh
  · rw [if_neg h, Finset.sum_eq_single (k + n - i)]
    · rw [if_neg (by omega), if_pos (by omega)]
    · intro j hj hne
      have := Finset.mem_range.1 hj
      rw [if_neg (by omega), if_neg (by omega)]
    · intro hh
      exact absurd (Finset.mem_range.2 (by omega)) hh

/-- The model's single sum is R144's double loop. -/
theorem mulCoeff_eq_sum (n k : Nat) (hk : k < n) (x y : Nat → Int) :
    mulCoeff n x y k = ∑ i ∈ Finset.range n, ∑ j ∈ Finset.range n,
      if i + j = k then x i * y j else if i + j = k + n then -(x i * y j) else 0 := by
  rw [mulCoeff, sum_map_range]
  refine Finset.sum_congr rfl fun i hi => ?_
  rw [inner_sum n k i (Finset.mem_range.1 hi) hk]

theorem countP_range (l : Nat) (p : Nat → Prop) [DecidablePred p] :
    (List.range l).countP p = ((Finset.range l).filter p).card := by
  rw [← Multiset.coe_countP, Multiset.countP_eq_card_filter]
  rfl

theorem inEighths_iff (q : Word) (a b x : Nat) :
    inEighths q a b x = true ↔ a * q.toNat ≤ 8 * x ∧ 8 * x ≤ b * q.toNat := by
  simp [inEighths]

theorem selectLow_iff (q : Word) (x : Nat) :
    selectLow q x = true ↔
      (0 * q.toNat ≤ 8 * x ∧ 8 * x ≤ 2 * q.toNat) ∨ (4 * q.toNat ≤ 8 * x ∧ 8 * x ≤ 6 * q.toNat) := by
  simp only [selectLow, Bool.or_eq_true, inEighths_iff]

/-- k = bitlen(2Q − 2) is the one exponent with 2^(k−1) ≤ 2Q − 2 < 2^k (R12, R192). -/
theorem unifBits_eq {q : Word} {k : Nat} (h1 : 3 ≤ q.toNat) (h2 : 2 ^ (k - 1) ≤ 2 * q.toNat - 2)
    (h3 : 2 * q.toNat - 2 < 2 ^ k) : unifBits q = k := by
  have hk : 1 ≤ k := by
    rcases k with _ | k
    · simp at h3; omega
    · omega
  have : Nat.log2 (2 * q.toNat - 2) = k - 1 :=
    (Nat.log2_eq_iff (by omega)).2 ⟨h2, by rwa [Nat.sub_add_cancel hk]⟩
  unfold unifBits bitlen
  omega

end Sys2Proof.Machine
end

