-- ==== Sys2Proof/Laws/Memory.lean ====
section
/-! SUPPORT. What the RAM operations do: a read after a write to the same place gives the value written, a write leaves every
other place alone, and every write keeps the canonical form. -/

namespace Sys2Proof.Machine

theorem byte?_append (m m' : Memory) (a : Nat) :
    Memory.byte? (m ++ m') a = (Memory.byte? m a).or (Memory.byte? m' a) := by
  induction m with
  | nil => simp [Memory.byte?]
  | cons c m ih =>
    obtain ⟨k, v⟩ := c
    simp only [List.cons_append, Memory.byte?]
    split <;> simp [ih]

theorem byte?_filter (m : Memory) (p : Nat → Bool) (a : Nat) :
    Memory.byte? (m.filter fun c => p c.1) a = if p a then Memory.byte? m a else none := by
  induction m with
  | nil => simp [Memory.byte?]
  | cons c m ih =>
    obtain ⟨k, v⟩ := c
    by_cases hk : p k <;> by_cases ha : k = a <;> simp_all [Memory.byte?]

theorem byte?_cellsFrom (bs : List Byte) (off a : Nat) :
    Memory.byte? (cellsFrom off bs) a = if off ≤ a then bs[a - off]? else none := by
  induction bs generalizing off with
  | nil => simp [cellsFrom, Memory.byte?]
  | cons b bs ih =>
    simp only [cellsFrom, Memory.byte?, ih]
    by_cases h : off = a
    · simp [h]
    · by_cases h' : off ≤ a
      · obtain ⟨d, rfl⟩ : ∃ d, a = off + 1 + d := ⟨a - off - 1, by omega⟩
        have : off + 1 + d - off = d + 1 := by omega
        simp [h, h', this]
      · have : ¬ off + 1 ≤ a := by omega
        simp [h, h', this]

/-- A write of bytes changes exactly the bytes written. -/
theorem byte?_store (m : Memory) (off : Nat) (bs : List Byte) (a : Nat) :
    Memory.byte? (m.store off bs) a =
      if off ≤ a ∧ a < off + bs.length then bs[a - off]? else Memory.byte? m a := by
  have lo := byte?_filter m (fun k => decide (k < off)) a
  have hi := byte?_filter m (fun k => decide (off + bs.length ≤ k)) a
  simp only [Memory.store, byte?_append, byte?_cellsFrom, lo, hi]
  by_cases h1 : a < off
  · have h2 : ¬ off ≤ a := by omega
    have h3 : ¬ off + bs.length ≤ a := by omega
    simp [h1, h2, h3]
  · have h2 : off ≤ a := by omega
    by_cases h3 : off + bs.length ≤ a
    · have h4 : ¬ a < off + bs.length := by omega
      have h5 : bs[a - off]? = none := List.getElem?_eq_none (by omega)
      simp [h1, h2, h3, h4, h5]
    · have h4 : a < off + bs.length := by omega
      simp [h1, h2, h3, h4]

theorem mem_cellsFrom {bs : List Byte} {off : Nat} {c : Host.Cell} (h : c ∈ cellsFrom off bs) :
    off ≤ c.1 ∧ c.1 < off + bs.length := by
  induction bs generalizing off with
  | nil => simp [cellsFrom] at h
  | cons b bs ih =>
    simp only [cellsFrom, List.mem_cons] at h
    rcases h with rfl | h
    · simp
    · have := ih h
      simp only [List.length_cons]
      omega

theorem cellsFrom_wf (bs : List Byte) (off : Nat) : Memory.wf (cellsFrom off bs) := by
  induction bs generalizing off with
  | nil => simp [Memory.wf, cellsFrom]
  | cons b bs ih =>
    refine List.pairwise_cons.2 ⟨fun c hc => ?_, ih (off + 1)⟩
    have := mem_cellsFrom hc
    omega

/-- Every write keeps the canonical form. -/
theorem store_wf {m : Memory} (h : m.wf) (off : Nat) (bs : List Byte) : (m.store off bs).wf := by
  unfold Memory.wf Memory.store
  rw [List.pairwise_append, List.pairwise_append]
  refine ⟨⟨h.filter _, cellsFrom_wf bs off, fun x hx y hy => ?_⟩, h.filter _, fun x hx y hy => ?_⟩
  · have := (mem_cellsFrom hy).1
    have := of_decide_eq_true (List.mem_filter.1 hx).2
    omega
  · have hy' := of_decide_eq_true (List.mem_filter.1 hy).2
    rcases List.mem_append.1 hx with hx | hx
    · have := of_decide_eq_true (List.mem_filter.1 hx).2
      omega
    · have := (mem_cellsFrom hx).2
      omega

theorem storeWords_wf {m : Memory} (h : m.wf) (off : Nat) (ws : List Word) : (m.storeWords off ws).wf :=
  store_wf h off _

/-- RAM right after a hard reset has the canonical form. -/
theorem resetOf_ram_wf (b : Build) : (State.resetOf b).ram.wf := List.Pairwise.nil

@[simp] theorem length_wordBytes (w : Word) : (wordBytes w).length = 4 := rfl

@[simp] theorem length_flatMap_wordBytes (ws : List Word) : (ws.flatMap wordBytes).length = 4 * ws.length := by
  induction ws with
  | nil => rfl
  | cons w ws ih => simp [ih]; omega

theorem getElem?_flatMap_wordBytes (ws : List Word) (k j : Nat) (hj : j < 4) :
    (ws.flatMap wordBytes)[4 * k + j]? = (ws[k]?).bind fun w => (wordBytes w)[j]? := by
  induction ws generalizing k with
  | nil => simp
  | cons w ws ih =>
    rw [List.flatMap_cons]
    cases k with
    | zero => rw [List.getElem?_append_left (by simpa using by omega)]; simp
    | succ k =>
      rw [List.getElem?_append_right (by simp; omega)]
      have : 4 * (k + 1) + j - (wordBytes w).length = 4 * k + j := by simp; omega
      rw [this, ih]; simp

/-- A write of words changes exactly the bytes of those words. -/
theorem byte?_storeWords_outside (m : Memory) (off : Nat) (ws : List Word) (a : Nat)
    (h : a < off ∨ off + 4 * ws.length ≤ a) : Memory.byte? (m.storeWords off ws) a = Memory.byte? m a := by
  rw [Memory.storeWords, byte?_store, if_neg (by simp; omega)]

theorem byte?_storeWords_inside (m : Memory) (off : Nat) (ws : List Word) (k j : Nat) (hk : k < ws.length) (hj : j < 4) :
    Memory.byte? (m.storeWords off ws) (off + 4 * k + j) = (wordBytes ws[k])[j]? := by
  rw [Memory.storeWords, byte?_store, if_pos (by simp; omega)]
  have : off + 4 * k + j - off = 4 * k + j := by omega
  rw [this, getElem?_flatMap_wordBytes _ _ _ hj, List.getElem?_eq_getElem hk]; rfl

theorem bytes_of_word (w : Word) :
    w.extractLsb' 24 8 ++ w.extractLsb' 16 8 ++ w.extractLsb' 8 8 ++ w.extractLsb' 0 8 = w := by
  ext i hi
  simp only [BitVec.getElem_append, BitVec.getElem_extractLsb']
  split
  · simp [BitVec.getLsbD_eq_getElem hi]
  · split
    · have : 8 + (i - 8) = i := by omega
      simp [this, BitVec.getLsbD_eq_getElem hi]
    · split
      · have : 16 + (i - 8 - 8) = i := by omega
        simp [this, BitVec.getLsbD_eq_getElem hi]
      · have : 24 + (i - 8 - 8 - 8) = i := by omega
        simp [this, BitVec.getLsbD_eq_getElem hi]

/-- A word written reads back. -/
theorem word?_storeWords_inside (m : Memory) (off : Nat) (ws : List Word) (k : Nat) (hk : k < ws.length) :
    Memory.word? (m.storeWords off ws) (off + 4 * k) = some ws[k] := by
  have h0 := byte?_storeWords_inside m off ws k 0 hk (by omega)
  have h1 := byte?_storeWords_inside m off ws k 1 hk (by omega)
  have h2 := byte?_storeWords_inside m off ws k 2 hk (by omega)
  have h3 := byte?_storeWords_inside m off ws k 3 hk (by omega)
  simp only [Nat.add_zero] at h0
  simp [Memory.word?, h0, h1, h2, h3, wordBytes, bytes_of_word]

/-- A word outside those written reads as before. -/
theorem word?_storeWords_outside (m : Memory) (off : Nat) (ws : List Word) (a : Nat)
    (h : a + 4 ≤ off ∨ off + 4 * ws.length ≤ a) : Memory.word? (m.storeWords off ws) a = Memory.word? m a := by
  simp only [Memory.word?]
  rw [byte?_storeWords_outside _ _ _ _ (by omega), byte?_storeWords_outside _ _ _ _ (by omega),
    byte?_storeWords_outside _ _ _ _ (by omega), byte?_storeWords_outside _ _ _ _ (by omega)]

/-- Reading a run of words gives a list exactly when every word of it reads. -/
theorem words?_eq_some_iff (m : Memory) (off n : Nat) (ws : List Word) :
    m.words? off n = some ws ↔ ws.length = n ∧ ∀ k (h : k < ws.length), m.word? (off + 4 * k) = some ws[k] := by
  induction n generalizing off ws with
  | zero =>
    simp only [Memory.words?, Option.some.injEq]
    constructor
    · rintro rfl; simp
    · rintro ⟨h, -⟩; exact (List.eq_nil_of_length_eq_zero h).symm
  | succ n ih =>
    constructor
    · intro h
      simp only [Memory.words?] at h
      split at h
      · rename_i w ws' hw hws
        cases h
        obtain ⟨hl, hk⟩ := (ih _ _).1 hws
        refine ⟨by simp [hl], fun k hk' => ?_⟩
        cases k with
        | zero => simpa using hw
        | succ k =>
          have := hk k (by simpa using hk')
          simpa [Nat.mul_add, Nat.add_assoc, Nat.add_comm 4] using this
      · cases h
    · rintro ⟨hl, hk⟩
      cases ws with
      | nil => simp at hl
      | cons w ws =>
        have h0 : m.word? off = some w := hk 0 (by simp)
        have hr : m.words? (off + 4) n = some ws := by
          refine (ih _ _).2 ⟨by simpa using hl, fun k hk' => ?_⟩
          have := hk (k + 1) (by simpa using hk')
          simpa [Nat.mul_add, Nat.add_assoc, Nat.add_comm 4] using this
        simp [Memory.words?, h0, hr]

/-- A run of words does not read exactly when some word of it does not. -/
theorem words?_eq_none_iff (m : Memory) (off n : Nat) :
    m.words? off n = none ↔ ∃ k < n, m.word? (off + 4 * k) = none := by
  induction n generalizing off with
  | zero => simp [Memory.words?]
  | succ n ih =>
    have step : m.words? off (n + 1) = none ↔ m.word? off = none ∨ m.words? (off + 4) n = none := by
      simp only [Memory.words?]
      cases m.word? off <;> cases m.words? (off + 4) n <;> simp
    rw [step, ih]
    constructor
    · rintro (h | ⟨k, hk, h⟩)
      · exact ⟨0, by omega, by simpa using h⟩
      · exact ⟨k + 1, by omega, by simpa [Nat.mul_add, Nat.add_assoc, Nat.add_comm 4] using h⟩
    · rintro ⟨k, hk, h⟩
      cases k with
      | zero => exact .inl (by simpa using h)
      | succ k => exact .inr ⟨k, by omega, by simpa [Nat.mul_add, Nat.add_assoc, Nat.add_comm 4] using h⟩

theorem bankOffset_eq (b : Build) (f : BankIx) (k : Nat) : b.bankOffset f k = b.bankOffset f 0 + 4 * k := by
  simp only [Build.bankOffset]; omega

theorem bankWord?_eq (s : State) (f : BankIx) (k : Nat) :
    s.bankWord? f k = s.ram.word? (s.build.bankOffset f 0 + 4 * k) := by
  rw [State.bankWord?, bankOffset_eq]

/-- A bank reads as a list exactly when each of its first n words does. -/
theorem bank?_eq_some_iff (s : State) (f : BankIx) (n : Nat) (ws : List Word) :
    s.bank? f n = some ws ↔ ws.length = n ∧ ∀ k (h : k < ws.length), s.bankWord? f k = some ws[k] := by
  simp only [State.bank?, words?_eq_some_iff, bankWord?_eq]

theorem bank?_eq_none_iff (s : State) (f : BankIx) (n : Nat) :
    s.bank? f n = none ↔ ∃ k < n, s.bankWord? f k = none := by
  simp only [State.bank?, words?_eq_none_iff, bankWord?_eq]

end Sys2Proof.Machine
end

