-- ==== Sys2Proof/Laws/State.lean ====
section
/-! SUPPORT. One lemma per field per state update, so that no proof unfolds a record update. -/

namespace Sys2Proof.Machine

variable (s : State)

/-! ### raiseError -/

section
variable (c : ErrCode) (info : Word)

@[simp] theorem State.raiseError_build : (s.raiseError c info).build = s.build := rfl
@[simp] theorem State.raiseError_ram : (s.raiseError c info).ram = s.ram := rfl
@[simp] theorem State.raiseError_fifo : (s.raiseError c info).fifo = s.fifo := rfl
@[simp] theorem State.raiseError_ieDone : (s.raiseError c info).ieDone = s.ieDone := rfl
@[simp] theorem State.raiseError_ieErr : (s.raiseError c info).ieErr = s.ieErr := rfl
@[simp] theorem State.raiseError_entSel : (s.raiseError c info).entSel = s.entSel := rfl
@[simp] theorem State.raiseError_done : (s.raiseError c info).done = s.done := rfl
@[simp] theorem State.raiseError_err : (s.raiseError c info).err = true := rfl
@[simp] theorem State.raiseError_cmd : (s.raiseError c info).cmd = s.cmd := rfl
@[simp] theorem State.raiseError_errCode : (s.raiseError c info).errCode = if s.err then s.errCode else c.code := rfl
@[simp] theorem State.raiseError_errInfo : (s.raiseError c info).errInfo = if s.err then s.errInfo else info := rfl
@[simp] theorem State.raiseError_cfgN : (s.raiseError c info).cfgN = s.cfgN := rfl
@[simp] theorem State.raiseError_cfgQ : (s.raiseError c info).cfgQ = s.cfgQ := rfl
@[simp] theorem State.raiseError_frac : (s.raiseError c info).frac = s.frac := rfl
@[simp] theorem State.raiseError_gmu : (s.raiseError c info).gmu = s.gmu := rfl
@[simp] theorem State.raiseError_gsigma : (s.raiseError c info).gsigma = s.gsigma := rfl
@[simp] theorem State.raiseError_cdtLen : (s.raiseError c info).cdtLen = s.cdtLen := rfl
@[simp] theorem State.raiseError_cdtOffset : (s.raiseError c info).cdtOffset = s.cdtOffset := rfl
@[simp] theorem State.raiseError_seq : (s.raiseError c info).seq = s.seq := rfl
@[simp] theorem State.raiseError_entPort : (s.raiseError c info).entPort = s.entPort := rfl
@[simp] theorem State.raiseError_rdata : (s.raiseError c info).rdata = s.rdata := rfl
@[simp] theorem State.raiseError_inputs : (s.raiseError c info).inputs = s.inputs := rfl

end

/-! ### acknowledge -/

section
variable (v : Word)

@[simp] theorem State.acknowledge_build : (s.acknowledge v).build = s.build := rfl
@[simp] theorem State.acknowledge_ram : (s.acknowledge v).ram = s.ram := rfl
@[simp] theorem State.acknowledge_fifo : (s.acknowledge v).fifo = s.fifo := rfl
@[simp] theorem State.acknowledge_ieDone : (s.acknowledge v).ieDone = s.ieDone := rfl
@[simp] theorem State.acknowledge_ieErr : (s.acknowledge v).ieErr = s.ieErr := rfl
@[simp] theorem State.acknowledge_entSel : (s.acknowledge v).entSel = s.entSel := rfl
@[simp] theorem State.acknowledge_done : (s.acknowledge v).done = (s.done && !v.getLsbD 1) := rfl
@[simp] theorem State.acknowledge_err : (s.acknowledge v).err = (s.err && !v.getLsbD 2) := rfl
@[simp] theorem State.acknowledge_cmd : (s.acknowledge v).cmd = s.cmd := rfl
@[simp] theorem State.acknowledge_errCode : (s.acknowledge v).errCode = if v.getLsbD 2 then 0 else s.errCode := rfl
@[simp] theorem State.acknowledge_errInfo : (s.acknowledge v).errInfo = if v.getLsbD 2 then 0 else s.errInfo := rfl
@[simp] theorem State.acknowledge_cfgN : (s.acknowledge v).cfgN = s.cfgN := rfl
@[simp] theorem State.acknowledge_cfgQ : (s.acknowledge v).cfgQ = s.cfgQ := rfl
@[simp] theorem State.acknowledge_frac : (s.acknowledge v).frac = s.frac := rfl
@[simp] theorem State.acknowledge_gmu : (s.acknowledge v).gmu = s.gmu := rfl
@[simp] theorem State.acknowledge_gsigma : (s.acknowledge v).gsigma = s.gsigma := rfl
@[simp] theorem State.acknowledge_cdtLen : (s.acknowledge v).cdtLen = s.cdtLen := rfl
@[simp] theorem State.acknowledge_cdtOffset : (s.acknowledge v).cdtOffset = s.cdtOffset := rfl
@[simp] theorem State.acknowledge_seq : (s.acknowledge v).seq = s.seq := rfl
@[simp] theorem State.acknowledge_entPort : (s.acknowledge v).entPort = s.entPort := rfl
@[simp] theorem State.acknowledge_rdata : (s.acknowledge v).rdata = s.rdata := rfl
@[simp] theorem State.acknowledge_inputs : (s.acknowledge v).inputs = s.inputs := rfl

end

/-! ### accept -/

section
variable (i : Instr)

@[simp] theorem State.accept_build : (s.accept i).build = s.build := rfl
@[simp] theorem State.accept_ram : (s.accept i).ram = s.ram := rfl
@[simp] theorem State.accept_fifo : (s.accept i).fifo = s.fifo := rfl
@[simp] theorem State.accept_ieDone : (s.accept i).ieDone = s.ieDone := rfl
@[simp] theorem State.accept_ieErr : (s.accept i).ieErr = s.ieErr := rfl
@[simp] theorem State.accept_entSel : (s.accept i).entSel = s.entSel := rfl
@[simp] theorem State.accept_done : (s.accept i).done = s.done := rfl
@[simp] theorem State.accept_err : (s.accept i).err = s.err := rfl
@[simp] theorem State.accept_cmd : (s.accept i).cmd = encode i := rfl
@[simp] theorem State.accept_errCode : (s.accept i).errCode = s.errCode := rfl
@[simp] theorem State.accept_errInfo : (s.accept i).errInfo = s.errInfo := rfl
@[simp] theorem State.accept_cfgN : (s.accept i).cfgN = s.cfgN := rfl
@[simp] theorem State.accept_cfgQ : (s.accept i).cfgQ = s.cfgQ := rfl
@[simp] theorem State.accept_frac : (s.accept i).frac = s.frac := rfl
@[simp] theorem State.accept_gmu : (s.accept i).gmu = s.gmu := rfl
@[simp] theorem State.accept_gsigma : (s.accept i).gsigma = s.gsigma := rfl
@[simp] theorem State.accept_cdtLen : (s.accept i).cdtLen = s.cdtLen := rfl
@[simp] theorem State.accept_cdtOffset : (s.accept i).cdtOffset = s.cdtOffset := rfl
@[simp] theorem State.accept_seq : (s.accept i).seq = .run i s.snapshot Progress.start := rfl
@[simp] theorem State.accept_entPort : (s.accept i).entPort = s.entPort := rfl
@[simp] theorem State.accept_rdata : (s.accept i).rdata = s.rdata := rfl
@[simp] theorem State.accept_inputs : (s.accept i).inputs = s.inputs := rfl

end

/-! ### complete -/

section

@[simp] theorem State.complete_build : (s.complete).build = s.build := rfl
@[simp] theorem State.complete_ram : (s.complete).ram = s.ram := rfl
@[simp] theorem State.complete_fifo : (s.complete).fifo = s.fifo := rfl
@[simp] theorem State.complete_ieDone : (s.complete).ieDone = s.ieDone := rfl
@[simp] theorem State.complete_ieErr : (s.complete).ieErr = s.ieErr := rfl
@[simp] theorem State.complete_entSel : (s.complete).entSel = s.entSel := rfl
@[simp] theorem State.complete_done : (s.complete).done = true := rfl
@[simp] theorem State.complete_err : (s.complete).err = s.err := rfl
@[simp] theorem State.complete_cmd : (s.complete).cmd = s.cmd := rfl
@[simp] theorem State.complete_errCode : (s.complete).errCode = s.errCode := rfl
@[simp] theorem State.complete_errInfo : (s.complete).errInfo = s.errInfo := rfl
@[simp] theorem State.complete_cfgN : (s.complete).cfgN = s.cfgN := rfl
@[simp] theorem State.complete_cfgQ : (s.complete).cfgQ = s.cfgQ := rfl
@[simp] theorem State.complete_frac : (s.complete).frac = s.frac := rfl
@[simp] theorem State.complete_gmu : (s.complete).gmu = s.gmu := rfl
@[simp] theorem State.complete_gsigma : (s.complete).gsigma = s.gsigma := rfl
@[simp] theorem State.complete_cdtLen : (s.complete).cdtLen = s.cdtLen := rfl
@[simp] theorem State.complete_cdtOffset : (s.complete).cdtOffset = s.cdtOffset := rfl
@[simp] theorem State.complete_seq : (s.complete).seq = .idle := rfl
@[simp] theorem State.complete_entPort : (s.complete).entPort = s.entPort := rfl
@[simp] theorem State.complete_rdata : (s.complete).rdata = s.rdata := rfl
@[simp] theorem State.complete_inputs : (s.complete).inputs = s.inputs := rfl

end

/-! ### commit -/

section
variable (rd : BankIx) (ws : List Word)

@[simp] theorem State.commit_build : (s.commit rd ws).build = s.build := rfl
@[simp] theorem State.commit_ram : (s.commit rd ws).ram = s.ram.storeWords (s.build.bankOffset rd 0) ws := rfl
@[simp] theorem State.commit_fifo : (s.commit rd ws).fifo = s.fifo := rfl
@[simp] theorem State.commit_ieDone : (s.commit rd ws).ieDone = s.ieDone := rfl
@[simp] theorem State.commit_ieErr : (s.commit rd ws).ieErr = s.ieErr := rfl
@[simp] theorem State.commit_entSel : (s.commit rd ws).entSel = s.entSel := rfl
@[simp] theorem State.commit_done : (s.commit rd ws).done = true := rfl
@[simp] theorem State.commit_err : (s.commit rd ws).err = s.err := rfl
@[simp] theorem State.commit_cmd : (s.commit rd ws).cmd = s.cmd := rfl
@[simp] theorem State.commit_errCode : (s.commit rd ws).errCode = s.errCode := rfl
@[simp] theorem State.commit_errInfo : (s.commit rd ws).errInfo = s.errInfo := rfl
@[simp] theorem State.commit_cfgN : (s.commit rd ws).cfgN = s.cfgN := rfl
@[simp] theorem State.commit_cfgQ : (s.commit rd ws).cfgQ = s.cfgQ := rfl
@[simp] theorem State.commit_frac : (s.commit rd ws).frac = s.frac := rfl
@[simp] theorem State.commit_gmu : (s.commit rd ws).gmu = s.gmu := rfl
@[simp] theorem State.commit_gsigma : (s.commit rd ws).gsigma = s.gsigma := rfl
@[simp] theorem State.commit_cdtLen : (s.commit rd ws).cdtLen = s.cdtLen := rfl
@[simp] theorem State.commit_cdtOffset : (s.commit rd ws).cdtOffset = s.cdtOffset := rfl
@[simp] theorem State.commit_seq : (s.commit rd ws).seq = .idle := rfl
@[simp] theorem State.commit_entPort : (s.commit rd ws).entPort = s.entPort := rfl
@[simp] theorem State.commit_rdata : (s.commit rd ws).rdata = s.rdata := rfl
@[simp] theorem State.commit_inputs : (s.commit rd ws).inputs = s.inputs := rfl

end

/-! ### softReset -/

section

@[simp] theorem State.softReset_build : (s.softReset).build = s.build := rfl
@[simp] theorem State.softReset_ram : (s.softReset).ram = s.ram := rfl
@[simp] theorem State.softReset_fifo : (s.softReset).fifo = [] := rfl
@[simp] theorem State.softReset_ieDone : (s.softReset).ieDone = false := rfl
@[simp] theorem State.softReset_ieErr : (s.softReset).ieErr = false := rfl
@[simp] theorem State.softReset_entSel : (s.softReset).entSel = false := rfl
@[simp] theorem State.softReset_done : (s.softReset).done = false := rfl
@[simp] theorem State.softReset_err : (s.softReset).err = false := rfl
@[simp] theorem State.softReset_cmd : (s.softReset).cmd = 0 := rfl
@[simp] theorem State.softReset_errCode : (s.softReset).errCode = 0 := rfl
@[simp] theorem State.softReset_errInfo : (s.softReset).errInfo = 0 := rfl
@[simp] theorem State.softReset_cfgN : (s.softReset).cfgN = s.build.resetN := rfl
@[simp] theorem State.softReset_cfgQ : (s.softReset).cfgQ = 0xFFFFFFFF := rfl
@[simp] theorem State.softReset_frac : (s.softReset).frac = 0x10 := rfl
@[simp] theorem State.softReset_gmu : (s.softReset).gmu = 0 := rfl
@[simp] theorem State.softReset_gsigma : (s.softReset).gsigma = 0x00010000 := rfl
@[simp] theorem State.softReset_cdtLen : (s.softReset).cdtLen = 0 := rfl
@[simp] theorem State.softReset_cdtOffset : (s.softReset).cdtOffset = 0 := rfl
@[simp] theorem State.softReset_seq : (s.softReset).seq = .idle := rfl
@[simp] theorem State.softReset_entPort : (s.softReset).entPort = s.entPort := rfl
@[simp] theorem State.softReset_rdata : (s.softReset).rdata = s.rdata := rfl
@[simp] theorem State.softReset_inputs : (s.softReset).inputs = s.inputs := rfl

end

/-! ### hardReset -/

section

@[simp] theorem State.hardReset_build : (s.hardReset).build = s.build := rfl
@[simp] theorem State.hardReset_ram : (s.hardReset).ram = [] := rfl
@[simp] theorem State.hardReset_fifo : (s.hardReset).fifo = [] := rfl
@[simp] theorem State.hardReset_ieDone : (s.hardReset).ieDone = false := rfl
@[simp] theorem State.hardReset_ieErr : (s.hardReset).ieErr = false := rfl
@[simp] theorem State.hardReset_entSel : (s.hardReset).entSel = false := rfl
@[simp] theorem State.hardReset_done : (s.hardReset).done = false := rfl
@[simp] theorem State.hardReset_err : (s.hardReset).err = false := rfl
@[simp] theorem State.hardReset_cmd : (s.hardReset).cmd = 0 := rfl
@[simp] theorem State.hardReset_errCode : (s.hardReset).errCode = 0 := rfl
@[simp] theorem State.hardReset_errInfo : (s.hardReset).errInfo = 0 := rfl
@[simp] theorem State.hardReset_cfgN : (s.hardReset).cfgN = s.build.resetN := rfl
@[simp] theorem State.hardReset_cfgQ : (s.hardReset).cfgQ = 0xFFFFFFFF := rfl
@[simp] theorem State.hardReset_frac : (s.hardReset).frac = 0x10 := rfl
@[simp] theorem State.hardReset_gmu : (s.hardReset).gmu = 0 := rfl
@[simp] theorem State.hardReset_gsigma : (s.hardReset).gsigma = 0x00010000 := rfl
@[simp] theorem State.hardReset_cdtLen : (s.hardReset).cdtLen = 0 := rfl
@[simp] theorem State.hardReset_cdtOffset : (s.hardReset).cdtOffset = 0 := rfl
@[simp] theorem State.hardReset_seq : (s.hardReset).seq = .idle := rfl
@[simp] theorem State.hardReset_entPort : (s.hardReset).entPort = s.entPort := rfl
@[simp] theorem State.hardReset_rdata : (s.hardReset).rdata = none := rfl
@[simp] theorem State.hardReset_inputs : (s.hardReset).inputs = s.inputs := rfl

end

/-! ### returns -/

section
variable (v : Word)

@[simp] theorem State.returns_build : (s.returns v).build = s.build := rfl
@[simp] theorem State.returns_ram : (s.returns v).ram = s.ram := rfl
@[simp] theorem State.returns_fifo : (s.returns v).fifo = s.fifo := rfl
@[simp] theorem State.returns_ieDone : (s.returns v).ieDone = s.ieDone := rfl
@[simp] theorem State.returns_ieErr : (s.returns v).ieErr = s.ieErr := rfl
@[simp] theorem State.returns_entSel : (s.returns v).entSel = s.entSel := rfl
@[simp] theorem State.returns_done : (s.returns v).done = s.done := rfl
@[simp] theorem State.returns_err : (s.returns v).err = s.err := rfl
@[simp] theorem State.returns_cmd : (s.returns v).cmd = s.cmd := rfl
@[simp] theorem State.returns_errCode : (s.returns v).errCode = s.errCode := rfl
@[simp] theorem State.returns_errInfo : (s.returns v).errInfo = s.errInfo := rfl
@[simp] theorem State.returns_cfgN : (s.returns v).cfgN = s.cfgN := rfl
@[simp] theorem State.returns_cfgQ : (s.returns v).cfgQ = s.cfgQ := rfl
@[simp] theorem State.returns_frac : (s.returns v).frac = s.frac := rfl
@[simp] theorem State.returns_gmu : (s.returns v).gmu = s.gmu := rfl
@[simp] theorem State.returns_gsigma : (s.returns v).gsigma = s.gsigma := rfl
@[simp] theorem State.returns_cdtLen : (s.returns v).cdtLen = s.cdtLen := rfl
@[simp] theorem State.returns_cdtOffset : (s.returns v).cdtOffset = s.cdtOffset := rfl
@[simp] theorem State.returns_seq : (s.returns v).seq = s.seq := rfl
@[simp] theorem State.returns_entPort : (s.returns v).entPort = s.entPort := rfl
@[simp] theorem State.returns_rdata : (s.returns v).rdata = some v := rfl
@[simp] theorem State.returns_inputs : (s.returns v).inputs = s.inputs := rfl

end

/-! ### taken -/

section
variable (sel : Bool)

@[simp] theorem State.taken_build : (s.taken sel).build = s.build := by
  cases sel <;> rfl
@[simp] theorem State.taken_ram : (s.taken sel).ram = s.ram := by
  cases sel <;> rfl
@[simp] theorem State.taken_fifo : (s.taken sel).fifo = if sel then s.fifo else s.fifo.tail := by
  cases sel <;> rfl
@[simp] theorem State.taken_ieDone : (s.taken sel).ieDone = s.ieDone := by
  cases sel <;> rfl
@[simp] theorem State.taken_ieErr : (s.taken sel).ieErr = s.ieErr := by
  cases sel <;> rfl
@[simp] theorem State.taken_entSel : (s.taken sel).entSel = s.entSel := by
  cases sel <;> rfl
@[simp] theorem State.taken_done : (s.taken sel).done = s.done := by
  cases sel <;> rfl
@[simp] theorem State.taken_err : (s.taken sel).err = s.err := by
  cases sel <;> rfl
@[simp] theorem State.taken_cmd : (s.taken sel).cmd = s.cmd := by
  cases sel <;> rfl
@[simp] theorem State.taken_errCode : (s.taken sel).errCode = s.errCode := by
  cases sel <;> rfl
@[simp] theorem State.taken_errInfo : (s.taken sel).errInfo = s.errInfo := by
  cases sel <;> rfl
@[simp] theorem State.taken_cfgN : (s.taken sel).cfgN = s.cfgN := by
  cases sel <;> rfl
@[simp] theorem State.taken_cfgQ : (s.taken sel).cfgQ = s.cfgQ := by
  cases sel <;> rfl
@[simp] theorem State.taken_frac : (s.taken sel).frac = s.frac := by
  cases sel <;> rfl
@[simp] theorem State.taken_gmu : (s.taken sel).gmu = s.gmu := by
  cases sel <;> rfl
@[simp] theorem State.taken_gsigma : (s.taken sel).gsigma = s.gsigma := by
  cases sel <;> rfl
@[simp] theorem State.taken_cdtLen : (s.taken sel).cdtLen = s.cdtLen := by
  cases sel <;> rfl
@[simp] theorem State.taken_cdtOffset : (s.taken sel).cdtOffset = s.cdtOffset := by
  cases sel <;> rfl
@[simp] theorem State.taken_seq : (s.taken sel).seq = s.seq := by
  cases sel <;> rfl
@[simp] theorem State.taken_entPort : (s.taken sel).entPort = if sel then none else s.entPort := by
  cases sel <;> rfl
@[simp] theorem State.taken_rdata : (s.taken sel).rdata = s.rdata := by
  cases sel <;> rfl
@[simp] theorem State.taken_inputs : (s.taken sel).inputs = s.inputs := by
  cases sel <;> rfl

end

/-! ### placeCommand -/

section
variable (w : Word)

@[simp] theorem State.placeCommand_build : (s.placeCommand w).build = s.build := rfl
@[simp] theorem State.placeCommand_ram : (s.placeCommand w).ram = s.ram := rfl
@[simp] theorem State.placeCommand_fifo : (s.placeCommand w).fifo = s.fifo := rfl
@[simp] theorem State.placeCommand_ieDone : (s.placeCommand w).ieDone = s.ieDone := rfl
@[simp] theorem State.placeCommand_ieErr : (s.placeCommand w).ieErr = s.ieErr := rfl
@[simp] theorem State.placeCommand_entSel : (s.placeCommand w).entSel = s.entSel := rfl
@[simp] theorem State.placeCommand_done : (s.placeCommand w).done = s.done := rfl
@[simp] theorem State.placeCommand_err : (s.placeCommand w).err = s.err := rfl
@[simp] theorem State.placeCommand_cmd : (s.placeCommand w).cmd = s.cmd := rfl
@[simp] theorem State.placeCommand_errCode : (s.placeCommand w).errCode = s.errCode := rfl
@[simp] theorem State.placeCommand_errInfo : (s.placeCommand w).errInfo = s.errInfo := rfl
@[simp] theorem State.placeCommand_cfgN : (s.placeCommand w).cfgN = s.cfgN := rfl
@[simp] theorem State.placeCommand_cfgQ : (s.placeCommand w).cfgQ = s.cfgQ := rfl
@[simp] theorem State.placeCommand_frac : (s.placeCommand w).frac = s.frac := rfl
@[simp] theorem State.placeCommand_gmu : (s.placeCommand w).gmu = s.gmu := rfl
@[simp] theorem State.placeCommand_gsigma : (s.placeCommand w).gsigma = s.gsigma := rfl
@[simp] theorem State.placeCommand_cdtLen : (s.placeCommand w).cdtLen = s.cdtLen := rfl
@[simp] theorem State.placeCommand_cdtOffset : (s.placeCommand w).cdtOffset = s.cdtOffset := rfl
@[simp] theorem State.placeCommand_seq : (s.placeCommand w).seq = .idle := rfl
@[simp] theorem State.placeCommand_entPort : (s.placeCommand w).entPort = s.entPort := rfl
@[simp] theorem State.placeCommand_rdata : (s.placeCommand w).rdata = s.rdata := rfl
@[simp] theorem State.placeCommand_inputs : (s.placeCommand w).inputs = .write (s.build.base + cmdOffset) 4 w :: s.inputs := rfl

end

end Sys2Proof.Machine
end

