-- ==== Sys2Proof/Laws/Commands.lean ====
section
/-! SUPPORT. What the shared operations of the commands do, said once: reading banks, committing, drawing, submitting, and
from these what `exec` does on an idle and on a running block. -/

namespace Sys2Proof.Machine

/-! ### Reading and committing -/

theorem bank?_of_holds {s : State} {f : BankIx} {n : Nat} {w : Nat → Word} (h : s.holds f n w) :
    s.bank? f n = some ((List.range n).map w) := by
  rw [bank?_eq_some_iff]
  refine ⟨by simp, fun k hk => ?_⟩
  have hk' : k < n := by simpa using hk
  simp [h k hk']

theorem unary_of_holds {s : State} {rd ra : BankIx} {snap : Snapshot} {f : List Word → List Word} {a : Nat → Word}
    (ha : s.holds ra snap.n.toNat a) :
    s.unary rd ra snap f = .next (s.commit rd (f ((List.range snap.n.toNat).map a))) := by
  simp [State.unary, bank?_of_holds ha]

theorem binary_of_holds {s : State} {rd ra rb : BankIx} {snap : Snapshot} {f : List Word → List Word → List Word}
    {a b : Nat → Word} (ha : s.holds ra snap.n.toNat a) (hb : s.holds rb snap.n.toNat b) :
    s.binary rd ra rb snap f =
      .next (s.commit rd (f ((List.range snap.n.toNat).map a) ((List.range snap.n.toNat).map b))) := by
  simp [State.binary, bank?_of_holds ha, bank?_of_holds hb]

/-- What a commit does to the words of the destination bank. -/
theorem commit_holds (s : State) (rd : BankIx) (ws : List Word) (k : Nat) (hk : k < ws.length) :
    (s.commit rd ws).bankWord? rd k = some ws[k] := by
  simp only [State.bankWord?, State.commit_ram, State.commit_build, bankOffset_eq s.build rd k]
  exact word?_storeWords_inside _ _ _ _ hk

/-- Everything a commit does. -/
theorem commitsTo_commit (s : State) (rd : BankIx) (ws : List Word) (n : Nat) (f : Nat → Word) (hn : ws.length = n)
    (hf : ∀ k (h : k < ws.length), ws[k] = f k) : s.CommitsTo rd n f (.next (s.commit rd ws)) := by
  subst hn
  refine ⟨_, rfl, fun k hk => ?_, fun a ha => ?_, rfl⟩
  · rw [commit_holds s rd ws k hk, hf k hk]
  · exact byte?_storeWords_outside _ _ _ _ ha

/-- The two outcomes of a command with one source. -/
theorem unary_cases (s : State) (rd ra : BankIx) (snap : Snapshot) (f : List Word → List Word) :
    (∃ a, a.length = snap.n.toNat ∧ s.bank? ra snap.n.toNat = some a ∧ s.unary rd ra snap f = .next (s.commit rd (f a))) ∨
    ((∃ k < snap.n.toNat, s.bankWord? ra k = none) ∧ s.unary rd ra snap f = .fault .unwrittenRam) := by
  unfold State.unary
  cases h : s.bank? ra snap.n.toNat with
  | none => exact .inr ⟨(bank?_eq_none_iff _ _ _).1 h, rfl⟩
  | some a => exact .inl ⟨a, ((bank?_eq_some_iff _ _ _ _).1 h).1, rfl, rfl⟩

/-- The two outcomes of a command with two sources. -/
theorem binary_cases (s : State) (rd ra rb : BankIx) (snap : Snapshot) (f : List Word → List Word → List Word) :
    (∃ a b, a.length = snap.n.toNat ∧ b.length = snap.n.toNat ∧ s.bank? ra snap.n.toNat = some a ∧
      s.bank? rb snap.n.toNat = some b ∧ s.binary rd ra rb snap f = .next (s.commit rd (f a b))) ∨
    ((∃ k < snap.n.toNat, s.bankWord? ra k = none ∨ s.bankWord? rb k = none) ∧
      s.binary rd ra rb snap f = .fault .unwrittenRam) := by
  unfold State.binary
  cases ha : s.bank? ra snap.n.toNat with
  | none =>
    obtain ⟨k, hk, h⟩ := (bank?_eq_none_iff _ _ _).1 ha
    exact .inr ⟨⟨k, hk, .inl h⟩, rfl⟩
  | some a =>
    cases hb : s.bank? rb snap.n.toNat with
    | none =>
      obtain ⟨k, hk, h⟩ := (bank?_eq_none_iff _ _ _).1 hb
      exact .inr ⟨⟨k, hk, .inr h⟩, rfl⟩
    | some b =>
      exact .inl ⟨a, b, ((bank?_eq_some_iff _ _ _ _).1 ha).1, ((bank?_eq_some_iff _ _ _ _).1 hb).1, rfl, rfl, rfl⟩

/-! ### Entropy -/

theorem draw?_eq (s : State) (sel : Bool) : s.draw? sel = (s.offered sel).map fun u => (u, s.taken sel) := by
  unfold State.draw? State.taken
  cases s.offered sel <;> rfl

/-- Everything the next step of a sampler command can do: wait, draw, fault on an unwritten threshold, commit, or nothing. -/
theorem samplerStep_cases (s : State) (i : Instr) (rd : BankIx) (snap : Snapshot) (prog : Progress)
    (draw : Word → Option Progress) :
    (s.waits snap prog ∧ s.samplerStep i rd snap prog draw = .next s) ∨
    (∃ u prog', prog.scratch.length < snap.n.toNat ∧ s.offered snap.entSel = some u ∧ draw u = some prog' ∧
      s.samplerStep i rd snap prog draw = .next { s.taken snap.entSel with seq := .run i snap prog' }) ∨
    (∃ u, prog.scratch.length < snap.n.toNat ∧ s.offered snap.entSel = some u ∧ draw u = none ∧
      s.samplerStep i rd snap prog draw = .fault .unwrittenRam) ∨
    (prog.scratch.length = snap.n.toNat ∧ s.samplerStep i rd snap prog draw = .next (s.commit rd prog.scratch)) ∨
    (snap.n.toNat < prog.scratch.length ∧ s.samplerStep i rd snap prog draw = .next s) := by
  unfold State.samplerStep State.waits
  rw [draw?_eq]
  by_cases h : prog.scratch.length < snap.n.toNat
  · cases ho : s.offered snap.entSel with
    | none => exact .inl ⟨⟨h, rfl⟩, by simp [h]⟩
    | some u =>
      cases hd : draw u with
      | none => exact .inr (.inr (.inl ⟨u, h, rfl, hd, by simp [h, hd]⟩))
      | some p => exact .inr (.inl ⟨u, p, h, rfl, hd, by simp [h, hd]⟩)
  · by_cases h' : prog.scratch.length = snap.n.toNat
    · exact .inr (.inr (.inr (.inl ⟨h', by simp [h']⟩)))
    · exact .inr (.inr (.inr (.inr ⟨by omega, by simp [h, h']⟩)))

/-! ### Submitting -/

/-- The configuration check of a command at acceptance (R53, R54, R120). -/
def cfgOk (i : Instr) (s : State) : Bool :=
  match i with
  | .nop => true
  | .gsmp _ => s.cfgValid && s.gsigma != 0
  | .gcdt _ => s.cfgValid && s.cdtLen.toNat ≤ cdtMax
  | _ => s.cfgValid

/-- On an idle block every meaning is the acceptance of its command. -/
theorem exec_idle {s : State} (h : s.seq = .idle) (i : Instr) : exec i s = .next (s.submit i (cfgOk i s)) := by
  cases i <;>
    simp [exec, execNop, execAdd, execNeg, execMul, execRedq, execRedqs, execRidl, execMov, execClr, execGsmp, execGcdt,
      execUnif, execRecon, State.command, h, cfgOk]

/-- The three outcomes of acceptance. -/
theorem submit_cases (s : State) (i : Instr) (ok : Bool) :
    (ok = false ∧ s.submit i ok = s.raiseError .cfg (encode i)) ∨
    (ok = true ∧ i.wf s.build.nb = false ∧ s.submit i ok = s.raiseError .bank (encode i)) ∨
    (ok = true ∧ i.wf s.build.nb = true ∧ s.submit i ok = s.accept i) := by
  unfold State.submit
  cases ok <;> cases h : i.wf s.build.nb <;> simp

/-- The words a one-step command commits, from the words of its sources. -/
def result (i : Instr) (snap : Snapshot) (a b : List Word) : List Word :=
  match i with
  | .add .. => List.zipWith (addLane snap.q) a b
  | .neg .. => a.map (negLane snap.q)
  | .mul .. => mulWords snap.n.toNat snap.q a b
  | .redq .. => a.map (redqLane snap.q)
  | .redqs .. => a.map (redqsLane snap.q)
  | .ridl .. => List.zipWith (ridlLane snap.q) a b
  | .mov .. => a
  | .clr _ => List.replicate snap.n.toNat 0
  | .recon .. => List.zipWith (reconLane snap.q) a b
  | .nop => []
  | .gsmp _ => []
  | .gcdt _ => []
  | .unif _ => []

/-- The new progress of a sampler command that draws `u` (R183, R190, R192). -/
def drawOf (i : Instr) (s : State) (snap : Snapshot) (prog : Progress) (u : Word) : Option Progress :=
  match i with
  | .gsmp _ => some (gsmpDraw snap prog u)
  | .gcdt _ => s.gcdtDraw snap prog u
  | .unif _ => some (unifDraw snap prog u)
  | _ => none

theorem exec_run_nop {s : State} {j : Instr} {snap : Snapshot} {prog : Progress} (h : s.seq = .run j snap prog) :
    exec .nop s = .next s.complete := by
  simp [exec, execNop, State.command, h]

/-- On a running block a sampler command takes its next sampler step. -/
theorem exec_run_sampler {s : State} {j i : Instr} {snap : Snapshot} {prog : Progress} (h : s.seq = .run j snap prog)
    (hi : isSampler i = true) :
    ∃ rd, destination? i = some rd ∧ exec i s = s.samplerStep i rd snap prog (drawOf i s snap prog) := by
  cases i <;> simp [isSampler] at hi <;>
    simp only [destination?, exec, execGsmp, execGcdt, execUnif, State.command, h, Option.some.injEq, exists_eq_left'] <;> rfl

/-- A command commits its result over words of the right number, or faults on an unwritten source word. -/
def CommitsOrFaults (s : State) (i : Instr) (snap : Snapshot) : Prop :=
  (∃ rd a b, destination? i = some rd ∧ (sources i ≠ [] → a.length = snap.n.toNat) ∧
    ((sources i).length = 2 → b.length = snap.n.toNat) ∧ exec i s = .next (s.commit rd (result i snap a b))) ∨
  ((∃ f ∈ sources i, ∃ k < snap.n.toNat, s.bankWord? f k = none) ∧ exec i s = .fault .unwrittenRam)

theorem commitsOrFaults_unary {s : State} {i : Instr} {snap : Snapshot} {rd ra : BankIx} (f : List Word → List Word)
    (hs : sources i = [ra]) (hd : destination? i = some rd) (hr : ∀ a b, result i snap a b = f a)
    (he : exec i s = s.unary rd ra snap f) : CommitsOrFaults s i snap := by
  rcases unary_cases s rd ra snap f with ⟨a, ha, -, h'⟩ | ⟨hk, h'⟩
  · exact .inl ⟨rd, a, [], hd, fun _ => ha, by simp [hs], by rw [he, h', hr]⟩
  · exact .inr ⟨⟨ra, by simp [hs], hk⟩, by rw [he, h']⟩

theorem commitsOrFaults_binary {s : State} {i : Instr} {snap : Snapshot} {rd ra rb : BankIx}
    (f : List Word → List Word → List Word) (hs : sources i = [ra, rb]) (hd : destination? i = some rd)
    (hr : ∀ a b, result i snap a b = f a b) (he : exec i s = s.binary rd ra rb snap f) : CommitsOrFaults s i snap := by
  rcases binary_cases s rd ra rb snap f with ⟨a, b, ha, hb, -, -, h'⟩ | ⟨⟨k, hk, hk' | hk'⟩, h'⟩
  · exact .inl ⟨rd, a, b, hd, fun _ => ha, fun _ => hb, by rw [he, h', hr]⟩
  · exact .inr ⟨⟨ra, by simp [hs], k, hk, hk'⟩, by rw [he, h']⟩
  · exact .inr ⟨⟨rb, by simp [hs], k, hk, hk'⟩, by rw [he, h']⟩

/-- On a running block every command but NOP and the samplers commits its result, or faults on an unwritten source word. -/
theorem exec_run_commit {s : State} {j i : Instr} {snap : Snapshot} {prog : Progress} (h : s.seq = .run j snap prog)
    (hi : isSampler i = false) (hn : i ≠ .nop) : CommitsOrFaults s i snap := by
  cases i with
  | nop => exact absurd rfl hn
  | add =>
    exact commitsOrFaults_binary (List.zipWith (addLane snap.q)) rfl rfl (fun _ _ => rfl)
      (by simp [exec, execAdd, State.command, h])
  | neg =>
    exact commitsOrFaults_unary (List.map (negLane snap.q)) rfl rfl (fun _ _ => rfl)
      (by simp [exec, execNeg, State.command, h])
  | mul =>
    exact commitsOrFaults_binary (mulWords snap.n.toNat snap.q) rfl rfl (fun _ _ => rfl)
      (by simp [exec, execMul, State.command, h])
  | redq =>
    exact commitsOrFaults_unary (List.map (redqLane snap.q)) rfl rfl (fun _ _ => rfl)
      (by simp [exec, execRedq, State.command, h])
  | redqs =>
    exact commitsOrFaults_unary (List.map (redqsLane snap.q)) rfl rfl (fun _ _ => rfl)
      (by simp [exec, execRedqs, State.command, h])
  | ridl =>
    exact commitsOrFaults_binary (List.zipWith (ridlLane snap.q)) rfl rfl (fun _ _ => rfl)
      (by simp [exec, execRidl, State.command, h])
  | mov => exact commitsOrFaults_unary id rfl rfl (fun _ _ => rfl) (by simp [exec, execMov, State.command, h])
  | clr rd =>
    exact .inl ⟨rd, [], [], rfl, by simp [sources], by simp [sources], by simp [exec, execClr, State.command, h, result]⟩
  | gsmp => simp [isSampler] at hi
  | gcdt => simp [isSampler] at hi
  | unif => simp [isSampler] at hi
  | recon =>
    exact commitsOrFaults_binary (List.zipWith (reconLane snap.q)) rfl rfl (fun _ _ => rfl)
      (by simp [exec, execRecon, State.command, h])

/-- A one-step command's result has one word per coefficient. -/
theorem length_result (i : Instr) (snap : Snapshot) (a b : List Word) (hi : isSampler i = false) (hn : i ≠ .nop)
    (ha : sources i ≠ [] → a.length = snap.n.toNat) (hb : (sources i).length = 2 → b.length = snap.n.toNat) :
    (result i snap a b).length = snap.n.toNat := by
  cases i <;> simp_all [sources, isSampler, result, mulWords]

/-! ### The samplers' steps -/

theorem exec_run_gsmp {s : State} {j : Instr} {rd : BankIx} {snap : Snapshot} {prog : Progress}
    (h : s.seq = .run j snap prog) :
    exec (.gsmp rd) s = s.samplerStep (.gsmp rd) rd snap prog fun z => some (gsmpDraw snap prog z) := by
  simp [exec, execGsmp, State.command, h]

theorem exec_run_gcdt {s : State} {j : Instr} {rd : BankIx} {snap : Snapshot} {prog : Progress}
    (h : s.seq = .run j snap prog) :
    exec (.gcdt rd) s = s.samplerStep (.gcdt rd) rd snap prog (s.gcdtDraw snap prog) := by
  simp [exec, execGcdt, State.command, h]

theorem exec_run_unif {s : State} {j : Instr} {rd : BankIx} {snap : Snapshot} {prog : Progress}
    (h : s.seq = .run j snap prog) :
    exec (.unif rd) s = s.samplerStep (.unif rd) rd snap prog fun w => some (unifDraw snap prog w) := by
  simp [exec, execUnif, State.command, h]

theorem samplerStep_wait {s : State} {i : Instr} {rd : BankIx} {snap : Snapshot} {prog : Progress}
    {draw : Word → Option Progress} (h : s.waits snap prog) : s.samplerStep i rd snap prog draw = .next s := by
  simp [State.samplerStep, h.1, draw?_eq, h.2]

theorem samplerStep_commit {s : State} {i : Instr} {rd : BankIx} {snap : Snapshot} {prog : Progress}
    {draw : Word → Option Progress} (h : prog.scratch.length = snap.n.toNat) :
    s.samplerStep i rd snap prog draw = .next (s.commit rd prog.scratch) := by
  simp [State.samplerStep, h]

theorem samplerStep_draw {s : State} {i : Instr} {rd : BankIx} {snap : Snapshot} {prog prog' : Progress}
    {draw : Word → Option Progress} {u : Word} (h : prog.scratch.length < snap.n.toNat)
    (ho : s.offered snap.entSel = some u) (hd : draw u = some prog') :
    s.samplerStep i rd snap prog draw = .next { s.taken snap.entSel with seq := .run i snap prog' } := by
  simp [State.samplerStep, h, draw?_eq, ho, hd]

theorem samplerStep_fault {s : State} {i : Instr} {rd : BankIx} {snap : Snapshot} {prog : Progress}
    {draw : Word → Option Progress} {u : Word} (h : prog.scratch.length < snap.n.toNat)
    (ho : s.offered snap.entSel = some u) (hd : draw u = none) :
    s.samplerStep i rd snap prog draw = .fault .unwrittenRam := by
  simp [State.samplerStep, h, draw?_eq, ho, hd]

/-- The used thresholds read as a list when each of them is written. -/
theorem cdt?_eq_some {s : State} {l : Nat} {t : Nat → Word} (h : ∀ j < l, s.ram.word? (0x100 + 4 * j) = some (t j)) :
    s.cdt? l = some ((List.range l).map t) := by
  rw [State.cdt?, words?_eq_some_iff]
  refine ⟨by simp, fun k hk => ?_⟩
  have := h k (by simpa using hk)
  simp [cdtOffsetOf, cdtBase, this]

theorem cdt?_eq_none_iff {s : State} {l : Nat} :
    s.cdt? l = none ↔ ∃ j < l, s.ram.word? (0x100 + 4 * j) = none := by
  rw [State.cdt?, words?_eq_none_iff]
  simp [cdtOffsetOf, cdtBase]

/-! ### Validity and the sequencer's move -/

/-- The check of ring validity says what R53 says. -/
theorem ringValid_iff (b : Build) (n q : Word) : ringValid b n q = true ↔ RingValid b n q := by
  simp only [ringValid, RingValid, Bool.and_eq_true, List.any_eq_true, List.mem_range, beq_iff_eq, decide_eq_true_eq,
    and_assoc, Build.nmax]
  constructor
  · rintro ⟨⟨k, hk, h⟩, h'⟩
    exact ⟨⟨k, h, Nat.pow_le_pow_right (by decide) (by omega)⟩, h'⟩
  · rintro ⟨⟨k, h, hk⟩, h'⟩
    exact ⟨⟨k, by have := (Nat.pow_le_pow_iff_right (by decide)).1 hk; omega, h⟩, h'⟩

theorem sequencerStep_idle {s : State} (h : s.seq = .idle) : s.sequencerStep = .next s := by
  simp [State.sequencerStep, h]

theorem sequencerStep_run {s : State} {i : Instr} {snap : Snapshot} {prog : Progress} (h : s.seq = .run i snap prog) :
    s.sequencerStep = exec i s := by
  simp [State.sequencerStep, h]

end Sys2Proof.Machine
end

