-- ==== Sys2Proof/Laws/Decode.lean ====
section
/-! SUPPORT. The command word as the concatenation of its fields, what the decoder can answer, and how it and the encoder agree
field by field. -/

namespace Sys2Proof

/-- A word of five fields: bits [31:20], RB, RA, RD, OPC (R111). -/
def fieldsWord (high : BitVec 12) (rb ra rd : BankIx) (opc : BitVec 8) : Word := high ++ rb ++ ra ++ rd ++ opc

theorem append_inj {m n : Nat} {a c : BitVec m} {b d : BitVec n} : a ++ b = c ++ d ↔ a = c ∧ b = d := by
  constructor
  · intro h
    constructor
    · have := congrArg (fun x => x.extractLsb' n m) h
      simpa [BitVec.extractLsb'_append_eq_left] using this
    · have := congrArg (fun x => x.setWidth n) h
      simpa [BitVec.setWidth_append] using this
  · rintro ⟨rfl, rfl⟩; rfl

theorem fieldsWord_inj {h h' : BitVec 12} {rb rb' ra ra' rd rd' : BankIx} {c c' : BitVec 8} :
    fieldsWord h rb ra rd c = fieldsWord h' rb' ra' rd' c' ↔ h = h' ∧ rb = rb' ∧ ra = ra' ∧ rd = rd' ∧ c = c' := by
  constructor
  · intro e
    obtain ⟨e, e1⟩ := (append_inj (m := 24) (n := 8)).1 e
    obtain ⟨e, e2⟩ := (append_inj (m := 20) (n := 4)).1 e
    obtain ⟨e, e3⟩ := (append_inj (m := 16) (n := 4)).1 e
    obtain ⟨e, e4⟩ := (append_inj (m := 12) (n := 4)).1 e
    exact ⟨e, e4, e3, e2, e1⟩
  · rintro ⟨rfl, rfl, rfl, rfl, rfl⟩; rfl

/-- Every word is its five fields. -/
theorem word_eq_fieldsWord (w : Word) :
    w = fieldsWord (w.extractLsb' 20 12) (fieldRb w) (fieldRa w) (fieldRd w) (fieldOpc w) := by
  simp only [fieldsWord, fieldRb, fieldRa, fieldRd, fieldOpc]
  rw [BitVec.extractLsb'_append_extractLsb'_eq_extractLsb' (by rfl),
    BitVec.extractLsb'_append_extractLsb'_eq_extractLsb' (by rfl),
    BitVec.extractLsb'_append_extractLsb'_eq_extractLsb' (by rfl),
    BitVec.extractLsb'_append_extractLsb'_eq_extractLsb' (by rfl)]
  simp

theorem fields_of_fieldsWord (h : BitVec 12) (rb ra rd : BankIx) (c : BitVec 8) :
    (fieldsWord h rb ra rd c).extractLsb' 20 12 = h ∧ fieldRb (fieldsWord h rb ra rd c) = rb ∧
      fieldRa (fieldsWord h rb ra rd c) = ra ∧ fieldRd (fieldsWord h rb ra rd c) = rd ∧
      fieldOpc (fieldsWord h rb ra rd c) = c :=
  fieldsWord_inj.1 (word_eq_fieldsWord (fieldsWord h rb ra rd c)).symm

theorem or_fieldsWord (h h' : BitVec 12) (rb rb' ra ra' rd rd' : BankIx) (c c' : BitVec 8) :
    fieldsWord h rb ra rd c ||| fieldsWord h' rb' ra' rd' c' =
      fieldsWord (h ||| h') (rb ||| rb') (ra ||| ra') (rd ||| rd') (c ||| c') := by
  refine (BitVec.or_append (w := 24) (v := 8)).trans (congrArg (· ++ (c ||| c')) ?_)
  refine (BitVec.or_append (w := 20) (v := 4)).trans (congrArg (· ++ (rd ||| rd')) ?_)
  refine (BitVec.or_append (w := 16) (v := 4)).trans (congrArg (· ++ (ra ||| ra')) ?_)
  exact BitVec.or_append

theorem and_fieldsWord (h h' : BitVec 12) (rb rb' ra ra' rd rd' : BankIx) (c c' : BitVec 8) :
    fieldsWord h rb ra rd c &&& fieldsWord h' rb' ra' rd' c' =
      fieldsWord (h &&& h') (rb &&& rb') (ra &&& ra') (rd &&& rd') (c &&& c') := by
  refine (BitVec.and_append (w := 24) (v := 8)).trans (congrArg (· ++ (c &&& c')) ?_)
  refine (BitVec.and_append (w := 20) (v := 4)).trans (congrArg (· ++ (rd &&& rd')) ?_)
  refine (BitVec.and_append (w := 16) (v := 4)).trans (congrArg (· ++ (ra &&& ra')) ?_)
  exact BitVec.and_append

theorem matchWord_eq (op : Opcode) : op.matchWord = fieldsWord 0 0 0 0 op.code := by cases op <;> rfl

/-- The encoder puts each field in its place. -/
theorem encodeFields_eq (op : Opcode) (rd ra rb : BankIx) : encodeFields op rd ra rb = fieldsWord 0 rb ra rd op.code := by
  have h1 : op.code.setWidth 32 = fieldsWord 0 0 0 0 op.code := matchWord_eq op
  have h2 : ∀ f : BankIx, f.setWidth 32 <<< 8 = fieldsWord 0 0 0 f 0 := by decide
  have h3 : ∀ f : BankIx, f.setWidth 32 <<< 12 = fieldsWord 0 0 f 0 0 := by decide
  have h4 : ∀ f : BankIx, f.setWidth 32 <<< 16 = fieldsWord 0 f 0 0 0 := by decide
  simp only [encodeFields, h1, h2, h3, h4, or_fieldsWord, BitVec.ofNat_eq_ofNat, BitVec.or_zero, BitVec.zero_or]

theorem fields_of_encodeFields (op : Opcode) (rd ra rb : BankIx) :
    fieldRb (encodeFields op rd ra rb) = rb ∧ fieldRa (encodeFields op rd ra rb) = ra ∧
      fieldRd (encodeFields op rd ra rb) = rd ∧ fieldOpc (encodeFields op rd ra rb) = op.code := by
  rw [encodeFields_eq]
  exact (fields_of_fieldsWord _ _ _ _ _).2

/-- Which words a mask and match select: OPC is the opcode's, and every bit outside the form's fields is 0 (R113, R114). -/
theorem masked_iff (w : Word) (op : Opcode) :
    w &&& op.mask = op.matchWord ↔
      fieldOpc w = op.code ∧ w.extractLsb' 20 12 = 0 ∧ (op.form = .dab ∨ fieldRb w = 0) ∧
        ((op.form = .dab ∨ op.form = .da) ∨ fieldRa w = 0) ∧ (op.form ≠ .z ∨ fieldRd w = 0) := by
  have hz : Form.mask .z = fieldsWord (BitVec.allOnes 12) (BitVec.allOnes 4) (BitVec.allOnes 4) (BitVec.allOnes 4)
      (BitVec.allOnes 8) := by decide
  have hd : Form.mask .d = fieldsWord (BitVec.allOnes 12) (BitVec.allOnes 4) (BitVec.allOnes 4) 0 (BitVec.allOnes 8) := by
    decide
  have hda : Form.mask .da = fieldsWord (BitVec.allOnes 12) (BitVec.allOnes 4) 0 0 (BitVec.allOnes 8) := by decide
  have hdab : Form.mask .dab = fieldsWord (BitVec.allOnes 12) 0 0 0 (BitVec.allOnes 8) := by decide
  rw [Opcode.mask, matchWord_eq]
  conv_lhs => rw [word_eq_fieldsWord w]
  cases op.form <;>
    simp only [hz, hd, hda, hdab, and_fieldsWord, fieldsWord_inj, BitVec.ofNat_eq_ofNat, BitVec.and_allOnes, BitVec.and_zero, reduceCtorEq, ne_eq,
      not_true, not_false_iff, true_or, or_true, false_or, or_false, true_and, and_true] <;>
    tauto

theorem ofCode?_code (op : Opcode) : Opcode.ofCode? op.code = some op := by cases op <;> rfl

theorem code_of_ofCode? {c : BitVec 8} {op : Opcode} (h : Opcode.ofCode? c = some op) : op.code = c := by
  unfold Opcode.ofCode? at h
  split at h <;> cases h <;> exact BitVec.eq_of_toNat_eq (by rename_i h; exact h.symm)

theorem code_inj {a b : Opcode} (h : a.code = b.code) : a = b := by
  have := ofCode?_code a
  rw [h, ofCode?_code] at this
  exact (Option.some.inj this).symm

@[simp] theorem opcode_instr (op : Opcode) (rd ra rb : BankIx) : (op.instr rd ra rb).opcode = op := by cases op <;> rfl

/-- Everything the decoder can answer: OPC is not in the map, a bit outside the form's fields is 1, or the word is a command. -/
theorem decode_cases (w : Word) :
    ((∀ op : Opcode, fieldOpc w ≠ op.code) ∧ decode w = .error .undefinedOpcode) ∨
    (∃ op : Opcode, fieldOpc w = op.code ∧ w &&& op.mask ≠ op.matchWord ∧ decode w = .error .reservedBits) ∨
    (∃ op : Opcode, fieldOpc w = op.code ∧ w &&& op.mask = op.matchWord ∧
      decode w = .ok (op.instr (fieldRd w) (fieldRa w) (fieldRb w))) := by
  unfold decode
  cases h : Opcode.ofCode? (fieldOpc w) with
  | none =>
    refine .inl ⟨fun op ho => ?_, rfl⟩
    rw [ho, ofCode?_code] at h
    cases h
  | some op =>
    have ho := (code_of_ofCode? h).symm
    by_cases hm : w &&& op.mask = op.matchWord
    · exact .inr (.inr ⟨op, ho, hm, by simp [hm]⟩)
    · exact .inr (.inl ⟨op, ho, hm, by simp [hm]⟩)

/-- Every command is its opcode with some fields, those its form does not use being 0 in its word. -/
theorem encode_fields (i : Instr) :
    ∃ rd ra rb, encode i = encodeFields i.opcode rd ra rb ∧ i.opcode.instr rd ra rb = i := by
  cases i with
  | nop => exact ⟨0, 0, 0, rfl, rfl⟩
  | add a b c | mul a b c | ridl a b c | recon a b c => exact ⟨a, b, c, rfl, rfl⟩
  | neg a b | redq a b | redqs a b | mov a b => exact ⟨a, b, 0, rfl, rfl⟩
  | clr a | gsmp a | gcdt a | unif a => exact ⟨a, 0, 0, rfl, rfl⟩

/-- A word that the mask and match select is the encoding of its fields. -/
theorem encode_instr_of_masked {w : Word} {op : Opcode} (h : w &&& op.mask = op.matchWord) :
    encode (op.instr (fieldRd w) (fieldRa w) (fieldRb w)) = w := by
  obtain ⟨hc, hh, hb, ha, hd⟩ := (masked_iff w op).1 h
  conv_rhs => rw [word_eq_fieldsWord w, hh, hc]
  cases op <;> simp_all [Opcode.instr, encode, encodeFields_eq, Opcode.form]

theorem banks_instr (op : Opcode) (rd ra rb : BankIx) :
    (op.instr rd ra rb).banks =
      match op.form with
      | .z => []
      | .d => [rd]
      | .da => [rd, ra]
      | .dab => [rd, ra, rb] := by
  cases op <;> rfl

theorem wf_iff (i : Instr) (nb : Nat) : i.wf nb = true ↔ ∀ f ∈ i.banks, f.toNat < nb := by
  simp [Instr.wf, List.all_eq_true]

end Sys2Proof
end

