-- ==== Sys2Proof/Laws/Bus.lean ====
section
/-! SUPPORT. What a host access and a step of the machine can do, said once. -/

namespace Sys2Proof.Machine

/-- The outcomes of an access: none of the block's, no step, or the act on the offset. -/
theorem access_cases (s : State) (addr size : Nat) (act : Nat → Host.Outcome State Fault Refusal) :
    s.access addr size act = .fault .outsideWindow ∨ s.access addr size act = .refused .notOneWord ∨
    ∃ off, addr = s.build.base + off ∧ off < windowSize ∧ off % 4 = 0 ∧ size = 4 ∧ s.access addr size act = act off := by
  unfold State.access
  split
  · exact .inl rfl
  · split
    · rename_i h h'
      exact .inr (.inr ⟨addr - s.build.base, by omega, by omega, h'.2, h'.1, rfl⟩)
    · exact .inr (.inl rfl)

/-- An aligned word access in the window is the act on its offset. -/
theorem access_word (s : State) (off : Nat) (act : Nat → Host.Outcome State Fault Refusal) (h : off < windowSize)
    (h4 : off % 4 = 0) : s.access (s.build.base + off) 4 act = act off := by
  have h1 : ¬ (s.build.base + off < s.build.base ∨ s.build.base + windowSize ≤ s.build.base + off) := by omega
  have h2 : s.build.base + off - s.build.base = off := by omega
  simp only [State.access, h1, h2, h4, if_false, and_self, if_true]

theorem step_nil {s : State} (h : s.inputs = []) : step s = s.sequencerStep := by
  simp [step, h]

theorem step_cons {s : State} {e : Input} {rest : List Input} (h : s.inputs = e :: rest) :
    step s = { s with inputs := rest }.move e := by
  simp [step, h]

/-- A step whose next move is a host write of one word in the window. -/
theorem step_write {s : State} {off : Nat} {w : Word} {rest : List Input}
    (h : s.inputs = .write (s.build.base + off) 4 w :: rest) (ho : off < windowSize) (h4 : off % 4 = 0) :
    step s = ({ s with inputs := rest } : State).memWrite off w := by
  rw [step_cons h]
  simp only [State.move]
  exact access_word ({ s with inputs := rest } : State) off _ ho h4

/-- A step whose next move is a host read of one word in the window. -/
theorem step_read {s : State} {off : Nat} {rest : List Input}
    (h : s.inputs = .read (s.build.base + off) 4 :: rest) (ho : off < windowSize) (h4 : off % 4 = 0) :
    step s = ({ s with inputs := rest } : State).memRead off := by
  rw [step_cons h]
  simp only [State.move]
  exact access_word ({ s with inputs := rest } : State) off _ ho h4

/-- The aligned offsets that count as RAM are those of the CDT words and of the words of existing banks (R84). -/
theorem isRam_iff {b : Build} {off : Nat} (h4 : off % 4 = 0) : b.isRam off = true ↔ RamOffset b off := by
  simp only [Build.isRam, Bool.or_eq_true, Bool.and_eq_true, decide_eq_true_eq, RamOffset]
  simp only [cdtBase, bankBase, show cdtMax = 64 from rfl]
  constructor
  · rintro (⟨h1, h2⟩ | ⟨h1, h2⟩)
    · exact .inl ⟨(off - 0x100) / 4, by omega, by omega⟩
    · have hm : 0 < b.nmax := Nat.two_pow_pos _
      have hlt : (off - 0x10000) / 4 < b.nmax * b.nb := by rw [Nat.mul_comm]; omega
      refine .inr ⟨(off - 0x10000) / 4 / b.nmax, Nat.div_lt_of_lt_mul hlt, _, Nat.mod_lt ((off - 0x10000) / 4) hm, ?_⟩
      rw [Nat.mul_comm ((off - 0x10000) / 4 / b.nmax), Nat.div_add_mod]
      omega
  · rintro (⟨j, hj, rfl⟩ | ⟨f, hf, i, hi, rfl⟩)
    · left; omega
    · right
      have h1 : f * b.nmax + b.nmax ≤ b.nb * b.nmax := by
        have := Nat.mul_le_mul_right b.nmax (Nat.succ_le_of_lt hf)
        rwa [Nat.succ_mul] at this
      omega

/-- RAM lies past the registers and is word-aligned. -/
theorem ramOffset_bounds {b : Build} {off : Nat} (h : RamOffset b off) : csrEnd ≤ off ∧ off % 4 = 0 := by
  have h0 : csrEnd = 0x40 := rfl
  rcases h with ⟨j, -, rfl⟩ | ⟨f, -, i, -, rfl⟩ <;> omega

/-- A read below the end of the registers returns the register, idle or running (R86). -/
theorem memRead_register (s : State) {off : Nat} (h : off < 0x40) : s.memRead off = .next (s.returns (s.readReg off)) := by
  simp [State.memRead, show off < csrEnd from h]

/-- The bits of STATUS as the host reads it (R40). -/
theorem statusWord_bits (s : State) :
    s.statusWord.getLsbD 0 = s.busy ∧ s.statusWord.getLsbD 1 = s.done ∧ s.statusWord.getLsbD 2 = s.err ∧
      s.statusWord.getLsbD 3 = s.cfgValid ∧ s.statusWord.getLsbD 4 = s.entWait ∧ s.statusWord >>> 5 = 0 := by
  unfold State.statusWord
  generalize s.busy = b0, s.done = b1, s.err = b2, s.cfgValid = b3, s.entWait = b4
  revert b0 b1 b2 b3 b4
  decide

/-- The bits of CTRL as the host reads it (R39). -/
theorem ctrlWord_bits (s : State) :
    s.ctrlWord.getLsbD 0 = s.ieDone ∧ s.ctrlWord.getLsbD 1 = s.ieErr ∧ s.ctrlWord.getLsbD 2 = s.entSel ∧
      s.ctrlWord >>> 3 = 0 := by
  unfold State.ctrlWord
  generalize s.ieDone = b0, s.ieErr = b1, s.entSel = b2
  revert b0 b1 b2
  decide

/-- Whether a sampler draws from a source, in the bits that ENT_WAIT and ent_ready are made of (R62, R80). -/
theorem drawsFrom_iff (s : State) (sel : Bool) : s.drawsFrom sel ↔ s.drawing = true ∧ s.portSelected = sel := by
  unfold State.drawsFrom
  cases hs : s.seq with
  | idle => simp [State.drawing, hs]
  | run i snap prog => cases i <;> simp [State.drawing, State.portSelected, isSampler, hs]

/-- A word the decoder accepts is the encoding of what it reads. -/
theorem encode_of_decode {w : Word} {i : Instr} (h : decode w = .ok i) : encode i = w := by
  rcases decode_cases w with ⟨-, hd⟩ | ⟨op, -, -, hd⟩ | ⟨op, -, hm, hd⟩ <;> rw [hd] at h <;> cases h
  exact encode_instr_of_masked hm

/-- The outcomes of a CMD write: rejected with an error that names the word, or accepted. -/
theorem writeCmd_cases (s : State) (w : Word) :
    (∃ c, c ≠ .hostAcc ∧ c ≠ .entOvf ∧ s.writeCmd w = .next (s.raiseError c w)) ∨
    (∃ i, s.seq = .idle ∧ decode w = .ok i ∧ encode i = w ∧ cfgOk i s = true ∧ i.wf s.build.nb = true ∧
      s.writeCmd w = .next (s.accept i)) := by
  cases hs : s.seq with
  | run i snap prog => exact .inl ⟨.busy, by simp, by simp, by simp [State.writeCmd, State.busy, hs]⟩
  | idle =>
    cases hd : decode w with
    | error e =>
      exact .inl ⟨DecodeError.errCode e, by cases e <;> simp [DecodeError.errCode], by cases e <;> simp [DecodeError.errCode],
        by simp [State.writeCmd, State.busy, hs, hd]⟩
    | ok i =>
      have hw := encode_of_decode hd
      have he : s.writeCmd w = .next (s.submit i (cfgOk i s)) := by
        simp [State.writeCmd, State.busy, hs, hd, exec_idle hs]
      rcases submit_cases s i (cfgOk i s) with ⟨-, h⟩ | ⟨-, -, h⟩ | ⟨h1, h2, h⟩
      · exact .inl ⟨.cfg, by simp, by simp, by rw [he, h, hw]⟩
      · exact .inl ⟨.bank, by simp, by simp, by rw [he, h, hw]⟩
      · exact .inr ⟨i, rfl, rfl, hw, h1, h2, by rw [he, h]⟩

/-- A write of a configuration register. -/
inductive ConfigWrite (s : State) (v : Word) : State → Prop where
  | cfgN : ConfigWrite s v { s with cfgN := v }
  | cfgQ : ConfigWrite s v { s with cfgQ := v }
  | gcfg : ConfigWrite s v { s with frac := v.setWidth 5 }
  | gmu : ConfigWrite s v { s with gmu := v }
  | gsigma : ConfigWrite s v { s with gsigma := v }
  | cdtLen : ConfigWrite s v { s with cdtLen := v.setWidth 7 }
  | cdtOffset : ConfigWrite s v { s with cdtOffset := v }

/-- The outcomes of a register write, by register. -/
theorem writeReg_cases (s : State) (off : Nat) (v : Word) :
    (off = 0x008 ∧ s.writeReg off v = .next (s.writeCtrl v)) ∨
    (off = 0x00C ∧ s.writeReg off v = .next (s.acknowledge v)) ∨
    (off = 0x010 ∧ s.writeReg off v = s.writeCmd v) ∨
    (off = 0x038 ∧ s.writeReg off v = .next (s.push v)) ∨
    (∃ t, ConfigWrite s v t ∧ s.writeReg off v = .next t) ∨
    s.writeReg off v = .next s := by
  unfold State.writeReg
  split
  · exact .inl ⟨rfl, rfl⟩
  · exact .inr (.inl ⟨rfl, rfl⟩)
  · exact .inr (.inr (.inl ⟨rfl, rfl⟩))
  · exact .inr (.inr (.inr (.inr (.inl ⟨_, .cfgN, rfl⟩))))
  · exact .inr (.inr (.inr (.inr (.inl ⟨_, .cfgQ, rfl⟩))))
  · exact .inr (.inr (.inr (.inr (.inl ⟨_, .gcfg, rfl⟩))))
  · exact .inr (.inr (.inr (.inr (.inl ⟨_, .gmu, rfl⟩))))
  · exact .inr (.inr (.inr (.inr (.inl ⟨_, .gsigma, rfl⟩))))
  · exact .inr (.inr (.inr (.inr (.inl ⟨_, .cdtLen, rfl⟩))))
  · exact .inr (.inr (.inr (.inr (.inl ⟨_, .cdtOffset, rfl⟩))))
  · exact .inr (.inr (.inr (.inl ⟨rfl, rfl⟩)))
  · exact .inr (.inr (.inr (.inr (.inr rfl))))

/-- The outcomes of a read in the window. -/
theorem memRead_cases (s : State) (off : Nat) :
    (∃ v, s.memRead off = .next (s.returns v)) ∨
    (s.busy = true ∧ s.build.isRam off = true ∧
      s.memRead off = .next ((s.raiseError .hostAcc (BitVec.ofNat 32 off)).returns 0)) ∨
    (s.busy = false ∧ s.build.isRam off = true ∧ s.ram.word? off = none ∧ s.memRead off = .fault .unwrittenRam) := by
  unfold State.memRead
  split
  · exact .inl ⟨_, rfl⟩
  · split
    · rename_i h
      split
      · rename_i hb
        exact .inr (.inl ⟨hb, h, rfl⟩)
      · rename_i hb
        cases hw : s.ram.word? off with
        | none => exact .inr (.inr ⟨by simpa using hb, h, rfl, rfl⟩)
        | some v => exact .inl ⟨v, rfl⟩
    · exact .inl ⟨_, rfl⟩

/-- The outcomes of a write in the window. -/
theorem memWrite_cases (s : State) (off : Nat) (v : Word) :
    (off < csrEnd ∧ s.memWrite off v = s.writeReg off v) ∨
    (csrEnd ≤ off ∧ s.build.isRam off = true ∧ s.busy = true ∧
      s.memWrite off v = .next (s.raiseError .hostAcc (BitVec.ofNat 32 off))) ∨
    (csrEnd ≤ off ∧ s.build.isRam off = true ∧ s.busy = false ∧
      s.memWrite off v = .next { s with ram := s.ram.storeWords off [v] }) ∨
    (csrEnd ≤ off ∧ s.build.isRam off = false ∧ s.memWrite off v = .next s) := by
  unfold State.memWrite
  by_cases h : off < csrEnd
  · exact .inl ⟨h, by simp [h]⟩
  · have h' : csrEnd ≤ off := by omega
    cases hr : s.build.isRam off <;> cases hb : s.busy <;> simp [h, h']

/-- Everything a completed host read can do: return a word, or be refused while BUSY. -/
inductive HostRead (s : State) (off : Nat) : State → Prop where
  | returned (v : Word) : HostRead s off (s.returns v)
  | refused (busy : s.busy = true) (ram : s.build.isRam off = true) :
      HostRead s off ((s.raiseError .hostAcc (BitVec.ofNat 32 off)).returns 0)

theorem hostRead_of_memRead {s t : State} {off : Nat} (h : s.memRead off = .next t) : HostRead s off t := by
  rcases memRead_cases s off with ⟨v, h'⟩ | ⟨hb, hr, h'⟩ | ⟨-, -, -, h'⟩ <;> rw [h'] at h <;> cases h
  · exact .returned v
  · exact .refused hb hr

/-- Everything a completed host write can do. -/
inductive HostWrite (s : State) (off : Nat) (v : Word) : State → Prop where
  | softReset (at_ : off = 0x008) (bit : v.getLsbD 3 = true) : HostWrite s off v s.softReset
  | ctrl (at_ : off = 0x008) (bit : v.getLsbD 3 = false) (fifo : List Word)
      (flush : fifo = s.fifo ∨ (fifo = [] ∧ v.getLsbD 4 = true)) :
      HostWrite s off v { s with ieDone := v.getLsbD 0, ieErr := v.getLsbD 1, entSel := v.getLsbD 2, fifo := fifo }
  | clearErr (at_ : off = 0x00C) (bit : v.getLsbD 2 = true) :
      HostWrite s off v { s with done := s.done && !v.getLsbD 1, err := false, errCode := 0, errInfo := 0 }
  | clearDone (at_ : off = 0x00C) (bit : v.getLsbD 2 = false) :
      HostWrite s off v { s with done := s.done && !v.getLsbD 1 }
  | error (c : ErrCode) (info : Word) (why : c = .hostAcc → s.busy = true ∧ s.build.isRam off = true) :
      HostWrite s off v (s.raiseError c info)
  | accept (i : Instr) (at_ : off = 0x010) (idle : s.seq = .idle) (decodes : decode v = .ok i) (encodes : encode i = v)
      (cfg : cfgOk i s = true) (banks : i.wf s.build.nb = true) : HostWrite s off v (s.accept i)
  | push (at_ : off = 0x038) (room : s.fifo.length < s.build.entDepth) :
      HostWrite s off v { s with fifo := s.fifo ++ [v] }
  | config (t : State) (reg : ConfigWrite s v t) : HostWrite s off v t
  | ram (idle : s.seq = .idle) (isRam : s.build.isRam off = true) :
      HostWrite s off v { s with ram := s.ram.storeWords off [v] }
  | nothing : HostWrite s off v s

theorem idle_of_not_busy {s : State} (h : s.busy = false) : s.seq = .idle := by
  unfold State.busy at h
  split at h
  · assumption
  · cases h

theorem busy_of_idle {s : State} (h : s.seq = .idle) : s.busy = false := by
  simp [State.busy, h]

theorem busy_of_run {s : State} {i : Instr} {snap : Snapshot} {prog : Progress} (h : s.seq = .run i snap prog) :
    s.busy = true := by
  simp [State.busy, h]

theorem hostWrite_writeCtrl (s : State) (off : Nat) (v : Word) (ho : off = 0x008) : HostWrite s off v (s.writeCtrl v) := by
  unfold State.writeCtrl
  split
  · exact .softReset ho ‹_›
  · rename_i h3
    refine .ctrl ho (by simpa using h3) _ ?_
    split
    · exact .inr ⟨rfl, ‹_›⟩
    · exact .inl rfl

theorem hostWrite_acknowledge (s : State) (off : Nat) (v : Word) (ho : off = 0x00C) :
    HostWrite s off v (s.acknowledge v) := by
  unfold State.acknowledge
  cases h2 : v.getLsbD 2 with
  | true => simpa using HostWrite.clearErr (s := s) ho h2
  | false => simpa using HostWrite.clearDone (s := s) ho h2

theorem hostWrite_of_memWrite {s t : State} {off : Nat} {v : Word} (h : s.memWrite off v = .next t) :
    HostWrite s off v t := by
  rcases memWrite_cases s off v with ⟨-, h'⟩ | ⟨-, hr, hb, h'⟩ | ⟨-, hr, hb, h'⟩ | ⟨-, -, h'⟩ <;> rw [h'] at h
  · rcases writeReg_cases s off v with ⟨ho, h''⟩ | ⟨ho, h''⟩ | ⟨ho, h''⟩ | ⟨ho, h''⟩ | ⟨t', hc, h''⟩ | h'' <;> rw [h''] at h
    · cases h; exact hostWrite_writeCtrl s off v ho
    · cases h; exact hostWrite_acknowledge s off v ho
    · rcases writeCmd_cases s v with ⟨c, hne, -, hc⟩ | ⟨i, hs, hd, he, hc, hw, h3⟩
      · rw [hc] at h; cases h; exact .error c v fun e => absurd e hne
      · rw [h3] at h; cases h; exact .accept i ho hs hd he hc hw
    · cases h
      unfold State.push
      split
      · exact .push ho ‹_›
      · exact .error _ _ (by simp)
    · cases h; exact .config _ hc
    · cases h; exact .nothing
  · cases h; exact .error _ _ fun _ => ⟨hb, hr⟩
  · cases h; exact .ram (idle_of_not_busy hb) hr
  · cases h; exact .nothing

/-- Everything the sequencer's move can do. -/
inductive SeqStep (s : State) : State → Prop where
  | idle (idle : s.seq = .idle) : SeqStep s s
  | complete (snap : Snapshot) (prog : Progress) (run : s.seq = .run .nop snap prog) : SeqStep s s.complete
  | commit (i : Instr) (snap : Snapshot) (prog : Progress) (rd : BankIx) (a b : List Word) (run : s.seq = .run i snap prog)
      (oneStep : isSampler i = false) (notNop : i ≠ .nop) (dest : destination? i = some rd)
      (len : (result i snap a b).length = snap.n.toNat) : SeqStep s (s.commit rd (result i snap a b))
  | wait (i : Instr) (snap : Snapshot) (prog : Progress) (run : s.seq = .run i snap prog) (sampler : isSampler i = true)
      (waits : s.waits snap prog ∨ snap.n.toNat < prog.scratch.length) : SeqStep s s
  | draw (i : Instr) (snap : Snapshot) (prog prog' : Progress) (u : Word) (run : s.seq = .run i snap prog)
      (sampler : isSampler i = true) (more : prog.scratch.length < snap.n.toNat) (offer : s.offered snap.entSel = some u)
      (draws : drawOf i s snap prog u = some prog') :
      SeqStep s { s.taken snap.entSel with seq := .run i snap prog' }
  | samplerCommit (i : Instr) (snap : Snapshot) (prog : Progress) (rd : BankIx) (run : s.seq = .run i snap prog)
      (sampler : isSampler i = true) (dest : destination? i = some rd) (full : prog.scratch.length = snap.n.toNat) :
      SeqStep s (s.commit rd prog.scratch)

theorem seqStep_of_sequencerStep {s t : State} (h : s.sequencerStep = .next t) : SeqStep s t := by
  unfold State.sequencerStep at h
  split at h
  · cases h; exact .idle ‹_›
  · rename_i i snap prog hs
    cases hi : isSampler i with
    | false =>
      by_cases hn : i = .nop
      · subst hn
        rw [exec_run_nop hs] at h
        cases h
        exact .complete snap prog hs
      · rcases exec_run_commit hs hi hn with ⟨rd, a, b, hd, ha, hb, he⟩ | ⟨-, he⟩ <;> rw [he] at h <;> cases h
        exact .commit i snap prog rd a b hs hi hn hd (length_result i snap a b hi hn ha hb)
    | true =>
      obtain ⟨rd, hd, he⟩ := exec_run_sampler hs hi
      rw [he] at h
      rcases samplerStep_cases s i rd snap prog (drawOf i s snap prog) with
        ⟨hw, h'⟩ | ⟨u, p, hl, ho, hp, h'⟩ | ⟨u, -, -, -, h'⟩ | ⟨hl, h'⟩ | ⟨hl, h'⟩ <;> rw [h'] at h <;> cases h
      · exact .wait i snap prog hs hi (.inl hw)
      · exact .draw i snap prog p u hs hi hl ho hp
      · exact .samplerCommit i snap prog rd hs hi hd hl
      · exact .wait i snap prog hs hi (.inr hl)

/-- Everything a step can do, by whose move it is; `s.pop` is the state with the move taken off the schedule. -/
def State.pop (s : State) : State := { s with inputs := s.inputs.tail }

theorem step_cases {s t : State} (h : step s = .next t) :
    (s.sequencerMoves ∧ SeqStep s.pop t) ∨
    (∃ offer rest, s.inputs = .entropy offer :: rest ∧ t = { s.pop with entPort := offer }) ∨
    (∃ rest, s.inputs = .hardReset :: rest ∧ t = s.pop.hardReset) ∨
    (∃ off rest, s.inputs = .read (s.build.base + off) 4 :: rest ∧ off < windowSize ∧ off % 4 = 0 ∧
      s.pop.memRead off = .next t) ∨
    (∃ off v rest, s.inputs = .write (s.build.base + off) 4 v :: rest ∧ off < windowSize ∧ off % 4 = 0 ∧
      s.pop.memWrite off v = .next t) := by
  cases hi : s.inputs with
  | nil =>
    have hp : s.pop = s := by cases s; simp_all [State.pop]
    rw [step_nil hi] at h
    rw [hp]
    exact .inl ⟨.inl hi, seqStep_of_sequencerStep h⟩
  | cons e rest =>
    have hp : s.pop = { s with inputs := rest } := by simp [State.pop, hi]
    rw [step_cons hi, ← hp] at h
    cases e with
    | sequencer => exact .inl ⟨.inr ⟨rest, hi⟩, seqStep_of_sequencerStep h⟩
    | entropy o => cases h; exact .inr (.inl ⟨o, rest, rfl, rfl⟩)
    | hardReset => cases h; exact .inr (.inr (.inl ⟨rest, rfl, rfl⟩))
    | read addr size =>
      simp only [State.move] at h
      rcases access_cases s.pop addr size s.pop.memRead with h' | h' | ⟨off, ha, ho, h4, hz, h'⟩ <;> rw [h'] at h
      · cases h
      · cases h
      · exact .inr (.inr (.inr (.inl ⟨off, rest, by rw [ha, hz]; rfl, ho, h4, h⟩)))
    | write addr size v =>
      simp only [State.move] at h
      rcases access_cases s.pop addr size (fun off => s.pop.memWrite off v) with h' | h' | ⟨off, ha, ho, h4, hz, h'⟩ <;>
        rw [h'] at h
      · cases h
      · cases h
      · exact .inr (.inr (.inr (.inr ⟨off, v, rest, by rw [ha, hz]; rfl, ho, h4, h⟩)))

end Sys2Proof.Machine
end

