-- ==== Sys2Proof/Laws/PerInstr.lean ====
section
/-! SUPPORT. The per-instruction family `FitsForm`: an encoded command has its opcode's bits where R113's mask and match ask for
them, and carries as many bank fields as its operand form (R112). One lemma per constructor. -/

namespace Sys2Proof.Laws

/-- The encoded word matches its row of R113, and the command has its form's number of fields. -/
def FitsForm.Statement (i : Instr) : Prop :=
  encode i &&& i.opcode.mask = i.opcode.matchWord ∧ i.banks.length = Machine.Form.arity i.opcode.form

theorem or_and_right (x y m : Word) : (x ||| y) &&& m = (x &&& m) ||| (y &&& m) := by
  ext i hi
  simp [Bool.and_or_distrib_right]

theorem rd_masked : ∀ f : BankIx, f.setWidth 32 <<< 8 &&& 0xFFFFF0FF#32 = 0#32 ∧
    f.setWidth 32 <<< 8 &&& 0xFFFF00FF#32 = 0#32 ∧ f.setWidth 32 <<< 8 &&& 0xFFF000FF#32 = 0#32 := by
  decide

theorem ra_masked : ∀ f : BankIx, f.setWidth 32 <<< 12 &&& 0xFFFF00FF#32 = 0#32 ∧
    f.setWidth 32 <<< 12 &&& 0xFFF000FF#32 = 0#32 := by
  decide

theorem rb_masked : ∀ f : BankIx, f.setWidth 32 <<< 16 &&& 0xFFF000FF#32 = 0#32 := by
  decide

/-- A word of form D keeps only OPC under its mask. -/
theorem encodeFields_d (op : Opcode) (h : op.form = .d) (rd : BankIx) :
    encodeFields op rd 0 0 &&& op.mask = op.matchWord := by
  have hc : op.code.setWidth 32 &&& 0xFFFFF0FF#32 = op.code.setWidth 32 := by cases op <;> decide
  simp [encodeFields, Opcode.mask, Form.mask, h, or_and_right, hc, (rd_masked rd).1, Opcode.matchWord]

/-- A word of form DA keeps only OPC under its mask. -/
theorem encodeFields_da (op : Opcode) (h : op.form = .da) (rd ra : BankIx) :
    encodeFields op rd ra 0 &&& op.mask = op.matchWord := by
  have hc : op.code.setWidth 32 &&& 0xFFFF00FF#32 = op.code.setWidth 32 := by cases op <;> decide
  simp [encodeFields, Opcode.mask, Form.mask, h, or_and_right, hc, (rd_masked rd).2.1, (ra_masked ra).1, Opcode.matchWord]

/-- A word of form DAB keeps only OPC under its mask. -/
theorem encodeFields_dab (op : Opcode) (h : op.form = .dab) (rd ra rb : BankIx) :
    encodeFields op rd ra rb &&& op.mask = op.matchWord := by
  have hc : op.code.setWidth 32 &&& 0xFFF000FF#32 = op.code.setWidth 32 := by cases op <;> decide
  simp [encodeFields, Opcode.mask, Form.mask, h, or_and_right, hc, (rd_masked rd).2.2, (ra_masked ra).2, rb_masked rb,
    Opcode.matchWord]

theorem FitsForm.nop : FitsForm.Statement .nop := ⟨by decide, rfl⟩

theorem FitsForm.add (rd ra rb : BankIx) : FitsForm.Statement (.add rd ra rb) :=
  ⟨encodeFields_dab .add rfl rd ra rb, rfl⟩

theorem FitsForm.neg (rd ra : BankIx) : FitsForm.Statement (.neg rd ra) :=
  ⟨encodeFields_da .neg rfl rd ra, rfl⟩

theorem FitsForm.mul (rd ra rb : BankIx) : FitsForm.Statement (.mul rd ra rb) :=
  ⟨encodeFields_dab .mul rfl rd ra rb, rfl⟩

theorem FitsForm.redq (rd ra : BankIx) : FitsForm.Statement (.redq rd ra) :=
  ⟨encodeFields_da .redq rfl rd ra, rfl⟩

theorem FitsForm.redqs (rd ra : BankIx) : FitsForm.Statement (.redqs rd ra) :=
  ⟨encodeFields_da .redqs rfl rd ra, rfl⟩

theorem FitsForm.ridl (rd ra rb : BankIx) : FitsForm.Statement (.ridl rd ra rb) :=
  ⟨encodeFields_dab .ridl rfl rd ra rb, rfl⟩

theorem FitsForm.mov (rd ra : BankIx) : FitsForm.Statement (.mov rd ra) :=
  ⟨encodeFields_da .mov rfl rd ra, rfl⟩

theorem FitsForm.clr (rd : BankIx) : FitsForm.Statement (.clr rd) :=
  ⟨encodeFields_d .clr rfl rd, rfl⟩

theorem FitsForm.gsmp (rd : BankIx) : FitsForm.Statement (.gsmp rd) :=
  ⟨encodeFields_d .gsmp rfl rd, rfl⟩

theorem FitsForm.gcdt (rd : BankIx) : FitsForm.Statement (.gcdt rd) :=
  ⟨encodeFields_d .gcdt rfl rd, rfl⟩

theorem FitsForm.unif (rd : BankIx) : FitsForm.Statement (.unif rd) :=
  ⟨encodeFields_d .unif rfl rd, rfl⟩

theorem FitsForm.recon (rd ra rb : BankIx) : FitsForm.Statement (.recon rd ra rb) :=
  ⟨encodeFields_dab .recon rfl rd ra rb, rfl⟩

end Sys2Proof.Laws
end

