-- ==== Sys2Proof/Tests/Slice0.lean ====
section
/-! SUPPORT. Small tests, with expected values from 95_test_vectors.md or worked by hand from the rules, and a witness for every
obligation that has hypotheses. -/

namespace Sys2Proof.Tests

open Sys2Proof Sys2Proof.Machine

/-! ### WellFormed refuses each ill-formed term (R116, R5, R81) -/

theorem test_wf_refuses_rd : Instr.wf 8 (.add 8 0 1) = false := by decide
theorem test_wf_refuses_ra : Instr.wf 8 (.neg 0 9) = false := by decide
theorem test_wf_refuses_rb : Instr.wf 8 (.recon 0 1 15) = false := by decide
theorem test_wf_accepts_last_bank : Instr.wf 8 (.mul 7 7 7) = true := by decide
theorem test_build_refuses_deep_banks : ¬ Build.Legal { Build.reference with log2Nmax := 15, nb := 2 } := by decide
theorem test_build_refuses_one_bank : ¬ Build.Legal { Build.reference with nb := 1 } := by decide
theorem test_build_refuses_17_banks : ¬ Build.Legal { Build.reference with nb := 17 } := by decide
theorem test_build_refuses_no_fifo : ¬ Build.Legal { Build.reference with entDepth := 0 } := by decide
theorem test_build_refuses_fifo_of_256 : ¬ Build.Legal { Build.reference with entDepth := 256 } := by decide
theorem test_build_refuses_full_window : ¬ Build.Legal { Build.reference with log2Nmax := 12, nb := 9 } := by decide
theorem test_build_refuses_base : ¬ Build.Legal { Build.reference with base := 0x10000 } := by decide
theorem test_build_accepts_reference : Build.Legal Build.reference := by decide

/-! ### Words written out from R111 and R113: RB, RA, RD and OPC as hexadecimal digits -/

theorem test_decode_nop : decode 0x00000000 = .ok .nop := by rfl
theorem test_decode_add : decode 0x00032101 = .ok (.add 1 2 3) := by rfl
theorem test_decode_neg : decode 0x0000A902 = .ok (.neg 9 10) := by rfl
theorem test_decode_mul : decode 0x000FED03 = .ok (.mul 13 14 15) := by rfl
theorem test_decode_redq : decode 0x00000704 = .ok (.redq 7 0) := by rfl
theorem test_decode_redqs : decode 0x00008005 = .ok (.redqs 0 8) := by rfl
theorem test_decode_ridl : decode 0x00043506 = .ok (.ridl 5 3 4) := by rfl
theorem test_decode_mov : decode 0x0000F107 = .ok (.mov 1 15) := by rfl
theorem test_decode_clr : decode 0x00000208 = .ok (.clr 2) := by rfl
theorem test_decode_gsmp : decode 0x00000510 = .ok (.gsmp 5) := by rfl
theorem test_decode_gcdt : decode 0x00000F11 = .ok (.gcdt 15) := by rfl
theorem test_decode_unif : decode 0x00000312 = .ok (.unif 3) := by rfl
theorem test_decode_recon : decode 0x00026620 = .ok (.recon 6 6 2) := by rfl
theorem test_encode_mul : encode (.mul 3 0 1) = 0x00010303 := by decide
theorem test_decode_reserved_field : decode 0x00001008 = .error .reservedBits := by rfl
theorem test_decode_reserved_bit : decode 0x80010303 = .error .reservedBits := by rfl
theorem test_decode_undefined : decode 0x801000FF = .error .undefinedOpcode := by rfl
theorem test_decodeTableWord : decodeTableWord 32 0x00023301 = some (.add 3 3 2) := by rfl
theorem test_disassemble_undefined : listingText (disassemble 0x0000000A) = ".word 0x0000000A ERR_OPCODE" := by decide
theorem test_disassemble_recon : listingText (disassemble 0x00026620) = "RECON p6, p6, p2" := by decide
theorem test_names : opcodeNamed? "Recon" = some .recon ∧ bankNamed? "p12" = some 12 ∧ bankNamed? "p16" = none := by decide
theorem test_assemble_add : assemble .add [3, 3, 2] = some 0x00023301 := by decide

/-! ### Small states -/

/-- The reset state with N = 4 and Q = 17. -/
def ring4 : State := { State.reset with cfgN := 4, cfgQ := 17 }

/-- A state with words 0, 1, … of a bank written. -/
def withBank (s : State) (f : BankIx) (ws : List Word) : State :=
  { s with ram := s.ram.storeWords (s.build.bankOffset f 0) ws }

/-- A state with CDT[0], CDT[1], … written. -/
def withCdt (s : State) (ws : List Word) : State := { s with ram := s.ram.storeWords 0x100 ws }

/-- The state in which a command has just been accepted. -/
def running (s : State) (i : Instr) : State := s.accept i

/-- The state in which a command runs that has these coefficients and this pending word. -/
def drawn (s : State) (i : Instr) (scratch : List Word) (pending : Option Word) : State :=
  { s with seq := .run i s.snapshot { scratch := scratch, pending := pending } }

/-- The next state of an outcome. -/
def after (o : Host.Outcome State Fault Refusal) : Option State :=
  match o with
  | .next s => some s
  | _ => none

/-- Words 0 to n − 1 of a bank after a command. -/
def bankAfter (o : Host.Outcome State Fault Refusal) (f : BankIx) (n : Nat) : Option (List Word) :=
  (after o).bind fun s => s.bank? f n

/-- What the sequencer holds of the result after a command. -/
def progAfter (o : Host.Outcome State Fault Refusal) : Option (List Word × Option Word) :=
  (after o).bind fun s =>
    match s.seq with
    | .run _ _ prog => some (prog.scratch, prog.pending)
    | .idle => none

/-- ERRCODE and ERRINFO after a host access. -/
def errAfter (o : Host.Outcome State Fault Refusal) : Option (BitVec 4 × Word) :=
  (after o).map fun s => (s.errCode, s.errInfo)

/-- Two source banks, p0 and p1. -/
def sources2 (a b : List Word) : State := withBank (withBank ring4 0 a) 1 b

/-! ### One step of each command (95_test_vectors.md §2) -/

theorem test_nop : (after (exec .nop (running ring4 .nop))).map (fun s => s.readReg 0x00C) = some 0x0A := by decide

theorem test_add : bankAfter (exec (.add 2 0 1) (running (sources2 [16, 5, 0, 9] [1, 12, 0, 9]) (.add 2 0 1))) 2 4 =
    some [0, 0, 0, 1] := by decide

theorem test_add_reads_residues :
    bankAfter (exec (.add 1 0 1) (running (sources2 [0xFFFFFFFF, 17, 34, 18] [0, 0, 0, 0]) (.add 1 0 1))) 1 4 =
      some [0, 0, 0, 1] := by decide

theorem test_neg : bankAfter (exec (.neg 0 0) (running (withBank ring4 0 [0, 1, 16, 8]) (.neg 0 0))) 0 4 =
    some [0, 16, 1, 9] := by decide

theorem test_mul : bankAfter (exec (.mul 2 0 1) (running (sources2 [1, 2, 3, 4] [5, 6, 7, 8]) (.mul 2 0 1))) 2 4 =
    some [12, 15, 2, 9] := by decide

theorem test_mul_in_place : bankAfter (exec (.mul 2 2 2) (running (withBank ring4 2 [12, 15, 2, 9]) (.mul 2 2 2))) 2 4 =
    some [6, 1, 5, 4] := by decide

theorem test_redq : bankAfter (exec (.redq 3 0) (running (withBank ring4 0 [17, 33, 0xFFFFFFFF, 5]) (.redq 3 0))) 3 4 =
    some [0, 16, 0, 5] := by decide

theorem test_redqs :
    bankAfter (exec (.redqs 3 0)
      (running (withBank ring4 0 [0xFFFFFFFF, 0xFFFFFFEF, 0x11, 0xFFFFFFEE]) (.redqs 3 0))) 3 4 =
      some [16, 0, 0, 16] := by decide

theorem test_ridl :
    bankAfter (exec (.ridl 5 0 1) (running (sources2 [5, 16, 34, 60] [61, 52, 32, 0]) (.ridl 5 0 1))) 5 4 =
      some [12, 15, 2, 9] := by decide

theorem test_mov_is_raw :
    bankAfter (exec (.mov 7 0) (running (withBank ring4 0 [0xFFFFFFFF, 3, 17, 18]) (.mov 7 0))) 7 4 =
      some [0xFFFFFFFF, 3, 17, 18] := by decide

theorem test_mov_faults_on_an_unwritten_word :
    after (exec (.mov 7 0) (running (withBank ring4 0 [1, 2, 3]) (.mov 7 0))) = none := by decide

theorem test_clr : bankAfter (exec (.clr 2) (running ring4 (.clr 2))) 2 4 = some [0, 0, 0, 0] := by decide

theorem test_clr_leaves_word_n : bankAfter (exec (.clr 2) (running ring4 (.clr 2))) 2 5 = none := by decide

/-- +1.5 is a tie and rounds to 2; −1.5 to −2 (§2.10). -/
theorem test_gsmp_ties : gsmpValue ring4.snapshot 0x00018000 = 2 ∧ gsmpValue ring4.snapshot 0xFFFE8000 = 15 := by decide

theorem test_gsmp_draws :
    progAfter (exec (.gsmp 0) (running { ring4 with fifo := [0xFFFF0000, 7] } (.gsmp 0))) = some ([16], none) := by decide

theorem test_gcdt_draws :
    progAfter (exec (.gcdt 0) (running (withCdt { ring4 with
      fifo := [0x4EFC50EE], cdtLen := 2, cdtOffset := 0xFFFFFFFA } [0x4EFC50EE, 0xB103AF12]) (.gcdt 0))) =
      some ([12], none) := by decide

theorem test_gcdt_without_entries :
    progAfter (exec (.gcdt 0) (running { ring4 with fifo := [0x7B], cdtOffset := 5 } (.gcdt 0))) = some ([5], none) := by decide

/-- Q = 17: 0x25 = 37 is rejected, 0x14 gives 4 (§2.9). -/
theorem test_unif_rejects_and_accepts :
    progAfter (exec (.unif 0) (drawn { ring4 with fifo := [0x25] } (.unif 0) [12] none)) = some ([12], none) ∧
      progAfter (exec (.unif 0) (drawn { ring4 with fifo := [0x14] } (.unif 0) [12] none)) = some ([12, 4], none) := by decide

/-- Q = 2^32 − 1: low word 0xFFFFFFFC with high bit 1 gives Q − 1 (§2.9). -/
theorem test_unif_two_words :
    progAfter (exec (.unif 0) (drawn { State.reset with fifo := [0xFFFFFFFC] } (.unif 0) [] none)) =
        some ([], some 0xFFFFFFFC) ∧
      progAfter (exec (.unif 0) (drawn { State.reset with fifo := [1] } (.unif 0) [] (some 0xFFFFFFFC))) =
        some ([0xFFFFFFFE], none) := by decide

theorem test_recon :
    bankAfter (exec (.recon 6 0 1) (running (sources2 [4, 7, 4, 1] [3, 11, 12, 10]) (.recon 6 0 1))) 6 4 =
      some [1, 1, 1, 0] := by decide

theorem test_recon_select_high :
    bankAfter (exec (.recon 6 0 1) (running (sources2 [6, 7, 14, 15] [5, 5, 8, 8]) (.recon 6 0 1))) 6 4 =
      some [0, 1, 1, 0] := by decide

/-! ### Acceptance, registers and RAM (95_test_vectors.md §2.1, §2.3, §2.14) -/

theorem test_accept_reports_rsvd_before_bank : errAfter (ring4.writeCmd 0x00110901) = some (5, 0x00110901) := by decide
theorem test_accept_reports_bank : errAfter (ring4.writeCmd 0x00090801) = some (3, 0x00090801) := by decide
theorem test_accept_reports_cfg_before_bank :
    errAfter (State.writeCmd { ring4 with cfgQ := 16 } 0x00010901) = some (1, 0x00010901) := by decide
theorem test_accept_reports_sigma : errAfter (State.writeCmd { ring4 with gsigma := 0 } 0x10) = some (1, 0x10) := by decide
theorem test_accept_reports_table : errAfter (State.writeCmd { ring4 with cdtLen := 65 } 0x11) = some (1, 0x11) := by decide
theorem test_accept_table_of_64 :
    errAfter (State.writeCmd { ring4 with cdtLen := 64, gsigma := 0 } 0x11) = some (0, 0) := by decide
theorem test_accept_reports_busy : errAfter ((running ring4 .nop).writeCmd 0x801000FF) = some (4, 0x801000FF) := by decide
theorem test_first_error_is_kept :
    errAfter (((ring4.raiseError .opcode 0xFF)).writeCmd 0x100) = some (2, 0xFF) := by decide
theorem test_caps : State.reset.readReg 0x004 = 0x4010080A := by decide
theorem test_status_after_reset : State.reset.readReg 0x00C = 8 := by decide
theorem test_status_waiting : (running ring4 (.gsmp 0)).readReg 0x00C = 0x19 := by decide
theorem test_bank_offsets : Build.reference.bankOffset 7 1023 = 0x17FFC ∧ Build.reference.isRam 0x18000 = false := by decide
theorem test_ctrl_flush :
    (after (State.memWrite { ring4 with fifo := [1, 2, 3] } 0x008 0x15)).map (fun s => (s.readReg 0x008, s.readReg 0x03C)) =
      some (0x5, 0) := by decide
theorem test_ram_refused_while_busy :
    errAfter ((running ring4 .nop).memWrite 0x104 7) = some (6, 0x104) := by decide
theorem test_fetch_word_is_submitted :
    (after (step (State.reset.withFetchWord 32 0x00010303))).map (fun s => s.cmd) = some 0x00010303 := by decide

/-! ### Witnesses: for each obligation with hypotheses, states and operands that meet them, clause by clause -/

/-- `ring4` with an even Q. -/
def badRing : State := { ring4 with cfgQ := 16 }

theorem ring4_valid : RingValid ring4.build ring4.cfgN ring4.cfgQ := ⟨⟨2, by decide, by decide⟩, by decide, by decide⟩

theorem badRing_invalid : ¬ RingValid badRing.build badRing.cfgN badRing.cfgQ := fun h => absurd h.2.1 (by decide)

/-- Coefficient k of a list of words. -/
def vec (ws : List Word) (k : Nat) : Word := ws.getD k 0

/-- What acceptance of a command needs, for its three outcomes at the boundary of NB = 8 banks, and a reserved word of its
opcode. -/
def MeetsAcceptance (op : Opcode) (bank8 bank7 : Instr) (w : Word) : Prop :=
  (badRing.seq = .idle ∧ ¬ RingValid badRing.build badRing.cfgN badRing.cfgQ) ∧
  (ring4.seq = .idle ∧ RingValid ring4.build ring4.cfgN ring4.cfgQ) ∧
  (∃ f ∈ bank8.banks, ring4.build.nb ≤ f.toNat) ∧ (∀ f ∈ bank7.banks, f.toNat < ring4.build.nb) ∧
  (fieldOpc w = op.code ∧ w &&& op.mask ≠ op.matchWord)

theorem meetsAcceptance (op : Opcode) (bank8 bank7 : Instr) (w : Word)
    (h : (∃ f ∈ bank8.banks, ring4.build.nb ≤ f.toNat) ∧ (∀ f ∈ bank7.banks, f.toNat < ring4.build.nb) ∧
      (fieldOpc w = op.code ∧ w &&& op.mask ≠ op.matchWord)) : MeetsAcceptance op bank8 bank7 w :=
  ⟨⟨rfl, badRing_invalid⟩, ⟨rfl, ring4_valid⟩, h⟩

/-- Two written sources of a running command. -/
def twoSources (i : Instr) : State := running (sources2 [16, 5, 0, 9] [1, 12, 0, 9]) i

/-- A running command, with banks 0 and 1 written and Q positive. -/
def RunsOnTwoSources (i : Instr) : Prop :=
  (twoSources i).seq = .run i ring4.snapshot Progress.start ∧ 0 < ring4.snapshot.q.toNat ∧
    (twoSources i).holds 0 ring4.snapshot.n.toNat (vec [16, 5, 0, 9]) ∧
    (twoSources i).holds 1 ring4.snapshot.n.toNat (vec [1, 12, 0, 9])

theorem runsOnTwoSources (i : Instr) : RunsOnTwoSources i := by
  refine ⟨rfl, by decide, ?_, ?_⟩
  · show ∀ k < 4, Memory.word? (sources2 [16, 5, 0, 9] [1, 12, 0, 9]).ram (Build.reference.bankOffset 0 k) =
      some (vec [16, 5, 0, 9] k)
    decide
  · show ∀ k < 4, Memory.word? (sources2 [16, 5, 0, 9] [1, 12, 0, 9]).ram (Build.reference.bankOffset 1 k) =
      some (vec [1, 12, 0, 9] k)
    decide

/-- A host access in front of a state's schedule. -/
def writes (s : State) (off : Nat) (v : Word) : State := { s with inputs := [.write (s.build.base + off) 4 v] }

/-- A host read in front of a state's schedule. -/
def reads (s : State) (off : Nat) : State := { s with inputs := [.read (s.build.base + off) 4] }

theorem witness_EncodeRebuildsEveryDecodedWord : decode 0x00010303 = .ok (.mul 3 0 1) := by rfl

theorem witness_MaskAndMatchSelectTheCommand : ∀ op : Opcode, fieldOpc 0x00000009 ≠ op.code := by
  intro op
  cases op <;> decide

theorem witness_ReservedAndUndefinedWordsAreRejected :
    fieldOpc 0x00000100 = Opcode.code .nop ∧ State.reset.seq = .idle ∧ decode 0x00000100 = .error .reservedBits ∧
      decode 0x00000021 = .error .undefinedOpcode := ⟨by decide, rfl, by rfl, by rfl⟩

theorem witness_StepRunsTheDecodedCommand :
    (writes ring4 0x010 0x208).seq = .idle ∧
      (writes ring4 0x010 0x208).inputs = [.write ((writes ring4 0x010 0x208).build.base + 0x010) 4 0x208] ∧
      decode 0x208 = .ok (.clr 2) ∧
      (running ring4 (.clr 2)).seq = .run (.clr 2) ring4.snapshot Progress.start ∧ (running ring4 (.clr 2)).inputs = [] ∧
      (running { ring4 with inputs := [.sequencer] } (.clr 2)).inputs = [.sequencer] :=
  ⟨rfl, rfl, rfl, rfl, rfl, rfl⟩

theorem ring4_configFits : ConfigFits .add ring4 := ⟨fun _ => ring4_valid, by simp, by simp⟩

theorem badRing_configFails : ¬ ConfigFits .add badRing := fun h => badRing_invalid (h.1 (by simp))

theorem witness_CommandWriteMakesTheAcceptanceChecks :
    (running ring4 .nop).seq ≠ .idle ∧ ring4.seq = .idle ∧ (∀ op : Opcode, fieldOpc 0x00000009 ≠ op.code) ∧
      fieldOpc 0x00100001 = Opcode.code .add ∧ (0x00100001 : Word) &&& Opcode.mask .add ≠ Opcode.matchWord .add ∧
      (0x00010801 : Word) &&& Opcode.mask .add = Opcode.matchWord .add ∧ ¬ ConfigFits .add badRing ∧
      ConfigFits .add ring4 ∧ (∃ f ∈ usedFields .dab 0x00010801, ring4.build.nb ≤ f.toNat) ∧
      (∀ f ∈ usedFields .dab 0x00010701, f.toNat < ring4.build.nb) ∧
      (writes ring4 0x010 0x00010701).inputs = [.write (ring4.build.base + 0x010) 4 0x00010701] :=
  ⟨by decide, rfl, witness_MaskAndMatchSelectTheCommand, by decide, by decide, by decide, badRing_configFails,
    ring4_configFits, by decide, by decide, rfl⟩

theorem witness_SnapshotShieldsTheRunningCommand :
    (running ring4 .nop).seq = .run .nop ring4.snapshot Progress.start ∧ (running ring4 .nop).busy = true ∧
      (running ring4 .nop).memWrite 0x028 5 = .next { running ring4 .nop with gmu := 5 } := ⟨rfl, rfl, rfl⟩

theorem witness_NopOnlyCompletes :
    State.reset.seq = .idle ∧ fieldOpc 0x00000100 = 0 ∧ (0x00000100 : Word) ≠ 0 ∧ (running ring4 .nop).seq ≠ .idle ∧
      (running ring4 .nop).seq = .run .nop ring4.snapshot Progress.start := ⟨rfl, by decide, by decide, by decide, rfl⟩

theorem witness_AddCommitsTheSums :
    MeetsAcceptance .add (.add 0 8 1) (.add 7 7 7) 0x00100001 ∧ RunsOnTwoSources (.add 7 0 1) :=
  ⟨meetsAcceptance _ _ _ _ (by decide), runsOnTwoSources _⟩

theorem witness_NegCommitsTheInverses :
    MeetsAcceptance .neg (.neg 8 0) (.neg 7 7) 0x00010002 ∧ RunsOnTwoSources (.neg 7 0) :=
  ⟨meetsAcceptance _ _ _ _ (by decide), runsOnTwoSources _⟩

theorem witness_MulCommitsTheNegacyclicProduct :
    MeetsAcceptance .mul (.mul 0 1 8) (.mul 7 7 7) 0x80000003 ∧ RunsOnTwoSources (.mul 7 0 1) :=
  ⟨meetsAcceptance _ _ _ _ (by decide), runsOnTwoSources _⟩

theorem witness_RedqCommitsTheUnsignedResidues :
    MeetsAcceptance .redq (.redq 0 8) (.redq 7 7) 0x00010004 ∧ RunsOnTwoSources (.redq 7 0) :=
  ⟨meetsAcceptance _ _ _ _ (by decide), runsOnTwoSources _⟩

theorem witness_RedqsCommitsTheSignedResidues :
    MeetsAcceptance .redqs (.redqs 0 8) (.redqs 7 7) 0x00010005 ∧ RunsOnTwoSources (.redqs 7 0) :=
  ⟨meetsAcceptance _ _ _ _ (by decide), runsOnTwoSources _⟩

theorem witness_RidlCommitsTheFoldedDifference :
    MeetsAcceptance .ridl (.ridl 0 1 8) (.ridl 7 7 7) 0x00100006 ∧ RunsOnTwoSources (.ridl 7 0 1) :=
  ⟨meetsAcceptance _ _ _ _ (by decide), runsOnTwoSources _⟩

theorem witness_MovCommitsTheRawWords :
    MeetsAcceptance .mov (.mov 0 8) (.mov 7 7) 0x00010007 ∧
      RunsOnTwoSources (.mov 7 0) ∧
      (running (withBank ring4 0 [1, 2, 3]) (.mov 7 0)).seq = .run (.mov 7 0) ring4.snapshot Progress.start ∧
      ∃ k < ring4.snapshot.n.toNat, (running (withBank ring4 0 [1, 2, 3]) (.mov 7 0)).bankWord? 0 k = none :=
  ⟨meetsAcceptance _ _ _ _ (by decide), runsOnTwoSources _, rfl, 3, by decide, by decide⟩

theorem witness_ClrCommitsZeros :
    MeetsAcceptance .clr (.clr 8) (.clr 7) 0x00001008 ∧
      (running ring4 (.clr 7)).seq = .run (.clr 7) ring4.snapshot Progress.start :=
  ⟨meetsAcceptance _ _ _ _ (by decide), rfl⟩

theorem witness_ReconCommitsTheThresholdBits :
    MeetsAcceptance .recon (.recon 0 8 1) (.recon 7 7 7) 0x00100020 ∧ RunsOnTwoSources (.recon 7 0 1) :=
  ⟨meetsAcceptance _ _ _ _ (by decide), runsOnTwoSources _⟩

/-- A sampler that draws from the FIFO, one that draws from the port, one that waits, and one with all its coefficients. -/
def SamplerSteps (i : Instr) : Prop :=
    (running { ring4 with fifo := [7] } i).seq = .run i ring4.snapshot Progress.start ∧
      Progress.start.scratch.length < ring4.snapshot.n.toNat ∧
      (running { ring4 with fifo := [7] } i).offered ring4.snapshot.entSel = some 7 ∧
      (running { ring4 with entSel := true, entPort := some 9 } i).offered true = some 9 ∧
      (running ring4 i).waits ring4.snapshot Progress.start ∧
      (drawn ring4 i [1, 2, 3, 4] none).seq = .run i ring4.snapshot { scratch := [1, 2, 3, 4], pending := none } ∧
      [1, 2, 3, 4].length = ring4.snapshot.n.toNat

theorem samplerSteps (i : Instr) : SamplerSteps i := ⟨rfl, by decide, rfl, rfl, ⟨by decide, rfl⟩, rfl, by decide⟩

theorem witness_GsmpDrawsRoundedSamples :
    MeetsAcceptance .gsmp (.gsmp 8) (.gsmp 7) 0x00001010 ∧ ring4.gsigma ≠ 0 ∧
      State.gsigma { ring4 with gsigma := 0 } = 0 ∧ SamplerSteps (.gsmp 7) :=
  ⟨meetsAcceptance _ _ _ _ (by decide), by decide, rfl, samplerSteps _⟩

/-- A GCDT with two thresholds written, and one whose second threshold is not. -/
def tableOf (ws : List Word) : State := running (withCdt { ring4 with fifo := [7], cdtLen := 2 } ws) (.gcdt 7)

theorem witness_GcdtDrawsTableLookups :
    MeetsAcceptance .gcdt (.gcdt 8) (.gcdt 7) 0x00001011 ∧ ring4.cdtLen.toNat ≤ 64 ∧
      ¬ (State.cdtLen { ring4 with cdtLen := 65 }).toNat ≤ 64 ∧
      (∀ j < 2, (tableOf [5, 6]).ram.word? (0x100 + 4 * j) = some (vec [5, 6] j)) ∧
      (∃ j < 2, (tableOf [5]).ram.word? (0x100 + 4 * j) = none) ∧ (tableOf [5]).offered false = some 7 ∧
      SamplerSteps (.gcdt 7) :=
  ⟨meetsAcceptance _ _ _ _ (by decide), by decide, by decide, by decide, by decide, rfl, samplerSteps _⟩

/-- k is 3 for Q = 3, 6 for Q = 17, 32 for Q = 2^31 − 1 and 2^31 + 1 gives 33, as does Q = 2^32 − 1. -/
theorem witness_UnifDrawsByRejection :
    MeetsAcceptance .unif (.unif 8) (.unif 7) 0x00001012 ∧
      (∀ p ∈ [(3, 3), (17, 6), (2 ^ 31 - 1, 32), (2 ^ 31 + 1, 33), (2 ^ 32 - 1, 33)],
        3 ≤ p.1 ∧ 2 ^ (p.2 - 1) ≤ 2 * p.1 - 2 ∧ 2 * p.1 - 2 < 2 ^ p.2) ∧
      State.reset.snapshot.q.toNat = 2 ^ 32 - 1 ∧ SamplerSteps (.unif 7) :=
  ⟨meetsAcceptance _ _ _ _ (by decide), by decide, by decide, samplerSteps _⟩

theorem witness_UnwrittenReadsAreModelFaults :
    (1 : BankIx) ∈ sources (.add 2 0 1) ∧ (3 : Nat) < ring4.snapshot.n.toNat ∧
      (running (withBank ring4 0 [1, 2, 3, 4]) (.add 2 0 1)).bankWord? 1 3 = none ∧
      (tableOf [5]).ram.word? (0x100 + 4 * 1) = none ∧
      (reads ring4 0x17FFC).seq = .idle ∧ WindowWord 0x17FFC ∧ RamOffset ring4.build 0x17FFC ∧
      (reads ring4 0x17FFC).ram.word? 0x17FFC = none ∧
      (reads ring4 0x17FFC).inputs = [.read (ring4.build.base + 0x17FFC) 4] ∧
      (∀ f ∈ sources (.clr 2), ∀ k < ring4.snapshot.n.toNat, (running ring4 (.clr 2)).bankWord? f k ≠ none) :=
  ⟨by decide, by decide, by decide, by decide, rfl, ⟨by decide, by decide⟩,
    .inr ⟨7, by decide, 1023, by decide, by decide⟩, by decide, rfl, by decide⟩

theorem witness_AcceptedCommandsNeverFail :
    (∀ f ∈ sources (.add 2 0 1), ∀ k < ring4.snapshot.n.toNat, (twoSources (.add 2 0 1)).bankWord? f k ≠ none) ∧
      ∀ j < 2, (tableOf [5, 6]).ram.word? (0x100 + 4 * j) ≠ none := by decide

theorem witness_CommandsStopOnlyOnUnwrittenRam :
    exec (.mov 7 0) (running ring4 (.mov 7 0)) = .fault .unwrittenRam := by rfl

theorem witness_OnlyWholeWordsAreAccessed :
    (reads ring4 0x3FFFC).inputs = [.read 0x3FFFC 4] ∧ ring4.build.base ≤ 0x3FFFC ∧
      0x3FFFC < ring4.build.base + 2 ^ 18 ∧ (0x3FFFC - ring4.build.base) % 4 = 0 ∧ (0x3FFFE - ring4.build.base) % 4 ≠ 0 ∧
      (2 : Nat) ≠ 4 := by decide

theorem witness_AccessOutsideTheWindowFaults :
    ring4.build.base + 2 ^ 18 ≤ 0x40000 ∧ 0x3FFFC < (Build.base { Build.reference with base := 0x40000 }) := by decide

theorem witness_FirstErrorIsRecorded : ring4.err = false ∧ (ring4.raiseError .busy 0).err = true := by decide

/-- A step that meets a second error, and one that meets a first. -/
theorem witness_RecordedErrorStaysUntilCleared :
    (∃ t, step (writes (ring4.raiseError .opcode 0xFF) 0x010 0x100) = .next t ∧ t.err = true) ∧
      (ring4.raiseError .opcode 0xFF).err = true ∧
      (∃ t, step (writes ring4 0x010 0xFF) = .next t ∧ t.err = true) ∧ (writes ring4 0x010 0xFF).err = false :=
  ⟨⟨_, rfl, rfl⟩, rfl, ⟨_, rfl, rfl⟩, rfl⟩

/-- A completion, an acknowledgement of DONE, one of ERR, a soft reset, and an error. -/
theorem witness_DoneAndErrChangeOnlyByTheirEvents :
    ((running ring4 .nop).sequencerMoves ∧ (running ring4 .nop).done = false ∧
        ∃ t, step (running ring4 .nop) = .next t ∧ t.seq = .idle ∧ t.done = true) ∧
      (∃ t, step (writes { ring4 with done := true } 0x00C 0x2) = .next t ∧ t.done = false) ∧
      (∃ t, step (writes (ring4.raiseError .opcode 0xFF) 0x00C 0x4) = .next t ∧ t.err = false) ∧
      (∃ t, step (writes { ring4 with done := true, err := true } 0x008 0x8) = .next t ∧ t.done = false ∧ t.err = false) ∧
      (∃ t, step (writes ring4 0x010 0xFF) = .next t ∧ t.err = true) :=
  ⟨⟨.inl rfl, rfl, _, rfl, rfl, rfl⟩, ⟨_, rfl, rfl⟩, ⟨_, rfl, rfl⟩, ⟨_, rfl, rfl, rfl⟩, ⟨_, rfl, rfl⟩⟩

theorem witness_AcknowledgeClearsTheRecordedError :
    (writes ring4 0x00C 0x6).inputs = [.write (ring4.build.base + 0x00C) 4 0x6] ∧ (0x6 : Word).getLsbD 2 = true ∧
      (0x2 : Word).getLsbD 2 = false := by decide

theorem witness_RamIsRefusedWhileBusy :
    (reads (running ring4 .nop) 0x1FC).seq ≠ .idle ∧ 0x1FC < 2 ^ 18 ∧ RamOffset ring4.build 0x1FC ∧
      RamOffset ring4.build 0x10000 ∧ ring4.seq = .idle ∧ ring4.err = false ∧ ring4.errCode ≠ 6 ∧
      (∃ t, ring4.memRead 0x200 = .next t) ∧ (∃ t, ring4.memWrite 0x17FFC 1 = .next t) :=
  ⟨by decide, by decide, .inl ⟨63, by decide, by decide⟩, .inr ⟨0, by decide, 0, by decide, by decide⟩, rfl, rfl, by decide,
    ⟨_, rfl⟩, ⟨_, rfl⟩⟩

theorem witness_PushFillsTheFifoOrOverflows :
    (writes ring4 0x038 1).inputs = [.write (ring4.build.base + 0x038) 4 1] ∧
      (reads ring4 0x038).inputs = [.read (ring4.build.base + 0x038) 4] ∧
      (State.fifo { ring4 with fifo := List.replicate 15 1 }).length < ring4.build.entDepth ∧
      ring4.build.entDepth ≤ (State.fifo { ring4 with fifo := List.replicate 16 1 }).length := by decide

theorem witness_SoftResetKeepsOnlyRam :
    (writes ring4 0x008 0x0F).inputs = [.write (ring4.build.base + 0x008) 4 0x0F] ∧ (0x0F : Word).getLsbD 3 = true ∧
      ring4.build.Legal := by decide

theorem witness_HardResetLeavesTheResetState :
    State.inputs { ring4 with inputs := [.hardReset] } = [.hardReset] ∧ ring4.build.Legal := by decide

/-- The first bank word is written and then, at the boundary, itself and its neighbour are read. -/
theorem witness_ResetRegistersRead :
    ring4.build.Legal ∧ State.inputs { running ring4 (.unif 1) with inputs := [.hardReset] } = [.hardReset] := ⟨by decide, rfl⟩

theorem witness_RegisterReadsReturnTheRegister :
    0x03C < 0x40 ∧ 0x03C % 4 = 0 ∧ (reads (running ring4 .nop) 0x03C).inputs = [.read (ring4.build.base + 0x03C) 4] := by decide

theorem witness_RamWriteReadsBack :
    ((7 : BankIx).toNat < ring4.build.nb ∧ 1 < ring4.build.nmax ∧ (withBank ring4 7 [1, 2]).bankWord? 7 1 = some 2) ∧
    (withBank ring4 0 [1, 2]).seq = .idle ∧ RamOffset ring4.build 0x10000 ∧ RamOffset ring4.build 0x10004 ∧
      (withBank ring4 0 [1, 2]).ram.word? 0x10004 = some 2 :=
  ⟨by decide, rfl, .inr ⟨0, by decide, 0, by decide, by decide⟩, .inr ⟨0, by decide, 1, by decide, by decide⟩, by decide⟩

theorem not_ramOffset {off : Nat} (h1 : ∀ j < 64, off ≠ 0x100 + 4 * j)
    (h2 : off < 0x10000 ∨ 0x18000 ≤ off) : ¬ RamOffset Build.reference off := by
  rintro (⟨j, hj, h⟩ | ⟨f, hf, i, hi, h⟩)
  · exact h1 j hj h
  · simp only [Build.reference, Build.nmax] at hf hi h
    omega

/-- The reserved words next to the registers, the table and the banks. -/
theorem witness_ReservedPlacesReadZeroAndIgnoreWrites :
    ¬ RamOffset Build.reference 0x040 ∧ ¬ RamOffset Build.reference 0x0FC ∧ ¬ RamOffset Build.reference 0x200 ∧
      ¬ RamOffset Build.reference 0x18000 ∧ Build.reference.Legal ∧ ring4.fifo.length ≤ ring4.build.entDepth :=
  ⟨not_ramOffset (by decide) (by decide), not_ramOffset (by decide) (by decide), not_ramOffset (by decide) (by decide),
    not_ramOffset (by decide) (by decide), by decide, by decide⟩

theorem witness_ReadsHaveNoSideEffects :
    ring4.seq = .idle ∧ (running ring4 .nop).build.isRam 0x018 = false ∧
      (∃ t, ring4.memRead 0x018 = .next t) ∧ (∃ t, (running ring4 .nop).memRead 0x018 = .next t) :=
  ⟨rfl, by decide, ⟨_, rfl⟩, ⟨_, rfl⟩⟩

theorem witness_ControlRegisterFields : (0x0F : Word).getLsbD 3 = true ∧ (0x15 : Word).getLsbD 3 = false := by decide

theorem witness_CapsReportsTheBuild : Build.reference.Legal ∧ ∃ t, step ring4 = .next t := ⟨by decide, _, rfl⟩

/-- A step of each kind that changes SEQ: an acceptance, a draw, a completion and a reset. -/
theorem witness_SequencerChangesOnlyByItsStepsAndResets :
    (∃ t, step (writes ring4 0x010 0x208) = .next t ∧ t.seq ≠ ring4.seq) ∧
      (∃ t, step (running { ring4 with fifo := [7] } (.gsmp 0)) = .next t ∧
        t.seq ≠ (running { ring4 with fifo := [7] } (.gsmp 0)).seq) ∧
      (∃ t, step (running ring4 (.clr 2)) = .next t ∧ t.seq ≠ (running ring4 (.clr 2)).seq) ∧
      (∃ t, step (writes (running ring4 (.clr 2)) 0x008 0x8) = .next t ∧ t.seq ≠ (running ring4 (.clr 2)).seq) :=
  ⟨⟨_, rfl, by decide⟩, ⟨_, rfl, by decide⟩, ⟨_, rfl, by decide⟩, ⟨_, rfl, by decide⟩⟩

theorem witness_RamChangesOnlyByHostWritesAndCommits :
    ∃ t, step (running ring4 (.clr 2)) = .next t ∧ Memory.byte? t.ram 0x12000 ≠ Memory.byte? ring4.ram 0x12000 :=
  ⟨_, rfl, by decide⟩

theorem witness_EntropyIsConsumedOnlyByDraws :
    (∃ t, step (running { ring4 with fifo := [7] } (.gsmp 0)) = .next t ∧ t.fifo = []) ∧
      ∃ t, step (running { ring4 with entSel := true, entPort := some 9 } (.unif 0)) = .next t ∧ t.entPort = none :=
  ⟨⟨_, rfl, rfl⟩, _, rfl, rfl⟩

theorem witness_InvariantHoldsAtReset : Build.reference.Legal := by decide

/-- The reset state meets the invariant, and a command write from it steps. -/
theorem witness_EveryStepKeepsTheInvariant :
    (writes State.reset 0x010 0).Inv ∧ ∃ t, step (writes State.reset 0x010 0) = .next t := by
  refine ⟨⟨by decide, by decide, ?_, fun _ => rfl, by decide, fun _ => ⟨rfl, rfl⟩, ?_, trivial⟩, _, rfl⟩
  · intro a h
    cases h
  · intro h
    cases h

theorem witness_ArithmeticCommandsCompleteInTwoSteps :
    (sources2 [1, 2, 3, 4] [5, 6, 7, 8]).seq = .idle ∧ isSampler (.mul 2 0 1) = false ∧
      Instr.wf (sources2 [1, 2, 3, 4] [5, 6, 7, 8]).build.nb (.mul 2 0 1) = true ∧
      RingValid (sources2 [1, 2, 3, 4] [5, 6, 7, 8]).build (sources2 [1, 2, 3, 4] [5, 6, 7, 8]).cfgN
        (sources2 [1, 2, 3, 4] [5, 6, 7, 8]).cfgQ ∧
      (∀ f ∈ sources (.mul 2 0 1), ∀ k < ring4.cfgN.toNat, (sources2 [1, 2, 3, 4] [5, 6, 7, 8]).bankWord? f k ≠ none) ∧
      (writes (sources2 [1, 2, 3, 4] [5, 6, 7, 8]) 0x010 0x00010203).inputs =
        [.write (ring4.build.base + 0x010) 4 (encode (.mul 2 0 1))] :=
  ⟨rfl, rfl, by decide, ring4_valid, by decide, by decide⟩

theorem witness_GsmpFillsTheBankFromTheFifo :
    (running { ring4 with fifo := [7, 8, 9, 10, 11] } (.gsmp 0)).seq = .run (.gsmp 0) ring4.snapshot Progress.start ∧
      (running { ring4 with fifo := [7, 8, 9, 10, 11] } (.gsmp 0)).inputs = [] ∧ ring4.snapshot.entSel = false ∧
      (running { ring4 with fifo := [7, 8, 9, 10, 11] } (.gsmp 0)).fifo = [7, 8, 9, 10] ++ [11] ∧
      [7, 8, 9, 10].length = ring4.snapshot.n.toNat := ⟨rfl, rfl, rfl, rfl, by decide⟩

theorem witness_GcdtFillsTheBankFromTheFifo :
    (∀ j < 2, (withCdt { ring4 with fifo := [7, 8, 9, 10], cdtLen := 2 } [5, 9]).ram.word? (0x100 + 4 * j) =
      some (vec [5, 9] j)) ∧
      (withCdt { ring4 with fifo := [7, 8, 9, 10], cdtLen := 2 } [5, 9]).fifo = [7, 8, 9, 10] ++ [] ∧
      [7, 8, 9, 10].length = ring4.snapshot.n.toNat := by decide

/-- Two states that differ in a bank and a register, and run the same UNIF with the same words and schedule. -/
theorem witness_SamplersAreDeterminedByTheirEntropy :
    isSampler (.unif 0) = true ∧ destination? (.unif 0) = some 0 ∧
      (running { withBank ring4 3 [1] with fifo := [7], gmu := 1 } (.clr 2)).fifo = [7] ∧
      (drawn { ring4 with fifo := [7], inputs := [.sequencer, .entropy none] } (.unif 0) [1, 2, 3] none).seq =
        (drawn { withBank ring4 3 [1] with fifo := [7], inputs := [.sequencer, .entropy none] } (.unif 0)
          [1, 2, 3] none).seq ∧
      (∃ t, runSteps 2 (drawn { ring4 with fifo := [7], inputs := [.sequencer, .entropy none] } (.unif 0)
        [1, 2, 3] none) = .next t) ∧
      (∀ j < ring4.cdtLen.toNat, (withBank ring4 3 [1]).ram.word? (0x100 + 4 * j) = ring4.ram.word? (0x100 + 4 * j)) :=
  ⟨rfl, rfl, rfl, by decide, ⟨_, rfl⟩, by decide⟩

theorem witness_ResidueIsTheFloorModulo :
    (17 : Word) ≠ 0 ∧ (16 : Nat) < (17 : Word).toNat ∧ ∃ m : Int, (-1 : Int) = m * (17 : Word).toNat + (16 : Nat) :=
  ⟨by decide, by decide, -1, by decide⟩

/-- A tie with an even and with an odd floor, and remainders just above and just below a half. -/
theorem witness_RoundingIsHalfToEven :
    (0 : Int) < 4 ∧ (2 : Int) = 0 * 4 + 2 ∧ (6 : Int) = 1 * 4 + 2 ∧ (2 : Int) * 3 > 4 ∧ (2 : Int) * 1 < 4 ∧
      (4 : Int) = 2 ^ (2 * 1) := by decide

theorem witness_RoundingIsToANearestInteger :
    (0 : Int) < 4 ∧ (1 : Int) ≠ rhe 2 4 ∧ |(2 : Int) - 1 * 4| = |2 - rhe 2 4 * 4| := by decide

theorem witness_AdditionIsAnAbelianGroup :
    3 ≤ (3 : Word).toNat ∧ ∀ k < 2, (vec [2, 1] k).toNat < (3 : Word).toNat := by decide

theorem witness_MultiplicationIsTheQuotientRings :
    3 ≤ (3 : Word).toNat ∧ 1 ≤ 2 ∧ ∀ k < 2, (vec [2, 1] k).toNat < (3 : Word).toNat := by decide

theorem witness_ProductIsTheFoldedFullProduct : (3 : Word) ≠ 0 ∧ 1 ≤ 1 := by decide

theorem witness_ReconciliationLimits : (17 : Word).toNat % 2 = 1 ∧ 1 ≤ 7 := by decide

end Sys2Proof.Tests
end

/-! The floor-modulo residue of R13, characterised as the one representative in [0, Q). -/

namespace Sys2Proof.Machine

/-- Among the numbers below Q, the residue is the one that differs from the operand by a multiple of Q. -/
theorem toNat_modQ_eq_iff {q : Word} {a : Int} {r : Nat} (hr : r < q.toNat) :
    (modQ q a).toNat = r ↔ ∃ m : Int, a = m * q.toNat + r := by
  have hq : 0 < q.toNat := by omega
  have hmod := toNat_modQ a hq
  constructor
  · rintro rfl
    exact ⟨a / q.toNat, by rw [hmod, Int.ediv_mul_add_emod]⟩
  · rintro ⟨m, rfl⟩
    rw [Int.mul_add_emod_self_right, Int.emod_eq_of_lt (by omega) (by omega)] at hmod
    exact Int.ofNat_inj.mp hmod

/-- Settles O52: the range is `modQ_lt`, and both the congruence and the uniqueness are `toNat_modQ_eq_iff`. -/
theorem residueIsTheFloorModulo : Obligations.ResidueIsTheFloorModulo := by
  intro q a hq
  have hpos : 0 < q.toNat := Nat.pos_of_ne_zero (BitVec.toNat_ne_iff_ne.mpr hq)
  have hlt : (modQ q a).toNat < q.toNat := modQ_lt a hpos
  exact ⟨hlt, (toNat_modQ_eq_iff hlt).mp rfl, fun r hr => (toNat_modQ_eq_iff hr).mpr⟩

end Sys2Proof.Machine

/-! The running command and the live configuration (R58): no operation of a running command reads a live register, so setting
them before a step and after it is the same. -/

namespace Sys2Proof.Machine

theorem busy_iff (s : State) : s.busy = true ↔ s.seq ≠ .idle := by
  cases hs : s.seq with
  | idle => simp [busy_of_idle hs]
  | run => simp [busy_of_run hs]

section
variable (s : State) (c : Snapshot)

theorem unary_setConfig (rd ra : BankIx) (snap : Snapshot) (f : List Word → List Word) :
    (s.setConfig c).unary rd ra snap f = mapNext (fun t => t.setConfig c) (s.unary rd ra snap f) := by
  have hread : (s.setConfig c).bank? ra snap.n.toNat = s.bank? ra snap.n.toNat := rfl
  unfold State.unary
  rw [hread]
  cases s.bank? ra snap.n.toNat <;> rfl

theorem binary_setConfig (rd ra rb : BankIx) (snap : Snapshot) (f : List Word → List Word → List Word) :
    (s.setConfig c).binary rd ra rb snap f = mapNext (fun t => t.setConfig c) (s.binary rd ra rb snap f) := by
  have hread (g : BankIx) : (s.setConfig c).bank? g snap.n.toNat = s.bank? g snap.n.toNat := rfl
  unfold State.binary
  rw [hread, hread]
  cases s.bank? ra snap.n.toNat <;> cases s.bank? rb snap.n.toNat <;> rfl

theorem taken_setConfig (sel : Bool) : (s.setConfig c).taken sel = (s.taken sel).setConfig c := by
  cases sel <;> rfl

/-- A sampler's next step draws from the source the snapshot selects, which the live CTRL.ENT_SEL does not change. -/
theorem samplerStep_setConfig (i : Instr) (rd : BankIx) (snap : Snapshot) (prog : Progress)
    (draw : Word → Option Progress) :
    (s.setConfig c).samplerStep i rd snap prog draw =
      mapNext (fun t => t.setConfig c) (s.samplerStep i rd snap prog draw) := by
  have hoffer : (s.setConfig c).offered snap.entSel = s.offered snap.entSel := rfl
  rcases samplerStep_cases s i rd snap prog draw with
    ⟨hwaits, h⟩ | ⟨u, prog', hmore, ho, hd, h⟩ | ⟨u, hmore, ho, hd, h⟩ | ⟨hfull, h⟩ | ⟨hover, h⟩ <;> rw [h]
  · exact samplerStep_wait hwaits
  · rw [samplerStep_draw hmore (hoffer.trans ho) hd, taken_setConfig]
    rfl
  · exact samplerStep_fault hmore (hoffer.trans ho) hd
  · exact samplerStep_commit hfull
  · have hmore : ¬ prog.scratch.length < snap.n.toNat := by omega
    have hfull : prog.scratch.length ≠ snap.n.toNat := by omega
    simp [State.samplerStep, hmore, hfull, mapNext]

variable {s}

/-- On a running block a command commutes with setting the live registers when its body does; the acceptance check, which
reads them, plays no part. -/
theorem command_setConfig {j : Instr} {snap : Snapshot} {prog : Progress} (hrun : s.seq = .run j snap prog)
    (i : Instr) (ok ok' : Bool) {body body' : Snapshot → Progress → Host.Outcome State Fault Refusal}
    (hbody : body' snap prog = mapNext (fun t => t.setConfig c) (body snap prog)) :
    (s.setConfig c).command i ok' body' = mapNext (fun t => t.setConfig c) (s.command i ok body) := by
  have hrun' : (s.setConfig c).seq = .run j snap prog := hrun
  simp only [State.command, hrun, hrun', hbody]

theorem exec_setConfig {j : Instr} {snap : Snapshot} {prog : Progress} (hrun : s.seq = .run j snap prog) (i : Instr) :
    exec i (s.setConfig c) = mapNext (fun t => t.setConfig c) (exec i s) := by
  cases i with
  | nop | clr => exact command_setConfig c hrun _ _ _ rfl
  | neg | redq | redqs | mov => exact command_setConfig c hrun _ _ _ (unary_setConfig ..)
  | add | mul | ridl | recon => exact command_setConfig c hrun _ _ _ (binary_setConfig ..)
  | gsmp | gcdt | unif => exact command_setConfig c hrun _ _ _ (samplerStep_setConfig ..)

end

/-- While BUSY the one host write that reaches RAM is refused. -/
theorem hostWrite_keeps_ram_of_busy {s t : State} {off : Nat} {v : Word} (hbusy : s.busy = true)
    (h : HostWrite s off v t) : t.ram = s.ram := by
  cases h with
  | ram idle => exact absurd idle ((busy_iff s).1 hbusy)
  | config t reg => cases reg <;> rfl
  | _ => rfl

/-- Settles O8: `exec_setConfig` for the running command, `hostWrite_keeps_ram_of_busy` for the host. -/
theorem snapshotShieldsTheRunningCommand : Obligations.SnapshotShieldsTheRunningCommand :=
  ⟨fun _ _ => rfl, fun _ i _ _ _ c hrun => exec_setConfig c hrun i,
    fun _ _ _ _ hbusy h => hostWrite_keeps_ram_of_busy hbusy (hostWrite_of_memWrite h)⟩

end Sys2Proof.Machine

/-! CAPS (R38): its word as a sum of its shifted fields, and the build parameters it reports, which no step changes. -/

namespace Sys2Proof.Machine

theorem toNat_append_eq_add {m n : Nat} (x : BitVec m) (y : BitVec n) :
    (x ++ y).toNat = x.toNat * 2 ^ n + y.toNat := by
  rw [BitVec.toNat_append, ← Nat.shiftLeft_add_eq_or_of_lt y.isLt, Nat.shiftLeft_eq]

theorem toNat_capsWord {b : Build} (h : b.Legal) :
    (capsWord b).toNat = 64 * 2 ^ 24 + b.entDepth * 2 ^ 16 + b.nb * 2 ^ 8 + b.log2Nmax := by
  obtain ⟨hlog, ⟨-, hnb⟩, ⟨-, hent⟩, -, -⟩ := h
  simp only [capsWord, toNat_append_eq_add (m := 27) (n := 5), toNat_append_eq_add (m := 24) (n := 3),
    toNat_append_eq_add (m := 19) (n := 5), toNat_append_eq_add (m := 16) (n := 3), toNat_append_eq_add,
    BitVec.ofNat_eq_ofNat, BitVec.toNat_ofNat, cdtMax]
  omega

theorem capsWord_fields {b : Build} (h : b.Legal) :
    ((capsWord b).extractLsb' 0 5).toNat = b.log2Nmax ∧ (capsWord b).extractLsb' 5 3 = 0 ∧
      ((capsWord b).extractLsb' 8 5).toNat = b.nb ∧ (capsWord b).extractLsb' 13 3 = 0 ∧
      ((capsWord b).extractLsb' 16 8).toNat = b.entDepth ∧ (capsWord b).extractLsb' 24 8 = 64 := by
  have hcaps := toNat_capsWord h
  obtain ⟨hlog, ⟨-, hnb⟩, ⟨-, hent⟩, -, -⟩ := h
  simp only [← BitVec.toNat_inj, BitVec.extractLsb'_toNat, Nat.shiftRight_eq_div_pow, hcaps,
    BitVec.ofNat_eq_ofNat, BitVec.toNat_ofNat]
  omega

theorem hostRead_keeps_build {s t : State} {off : Nat} (h : HostRead s off t) : t.build = s.build := by
  cases h <;> rfl

theorem hostWrite_keeps_build {s t : State} {off : Nat} {v : Word} (h : HostWrite s off v t) : t.build = s.build := by
  cases h with
  | config t reg => cases reg <;> rfl
  | _ => rfl

theorem seqStep_keeps_build {s t : State} (h : SeqStep s t) : t.build = s.build := by
  cases h with
  | draw _ snap => exact State.taken_build s snap.entSel
  | _ => rfl

/-- No step changes the build parameters (R5). -/
theorem step_keeps_build {s t : State} (h : step s = .next t) : t.build = s.build := by
  rw [show s.build = s.pop.build from rfl]
  rcases step_cases h with ⟨-, hseq⟩ | ⟨_, _, -, rfl⟩ | ⟨_, -, rfl⟩ | ⟨_, _, -, -, -, hread⟩ | ⟨_, _, _, -, -, -, hwrite⟩
  · exact seqStep_keeps_build hseq
  · rfl
  · rfl
  · exact hostRead_keeps_build (hostRead_of_memRead hread)
  · exact hostWrite_keeps_build (hostWrite_of_memWrite hwrite)

/-- Settles O41: the fields are `capsWord_fields`, and the build stays by `step_keeps_build`. -/
theorem capsReportsTheBuild : Obligations.CapsReportsTheBuild := by
  refine ⟨?_, fun s t => step_keeps_build, rfl⟩
  rintro s _ rfl hlegal
  exact capsWord_fields hlegal

end Sys2Proof.Machine

/-! STATUS (R40, R62): what its bits say of the sequencer, the ring and the entropy sources. -/

namespace Sys2Proof.Machine

theorem offered_eq_none_iff (s : State) (sel : Bool) :
    s.offered sel = none ↔ (sel = false → s.fifo = []) ∧ (sel = true → s.entPort = none) := by
  cases sel <;> simp [State.offered]

/-- ENT_WAIT is set exactly when a sampler runs and its next step is a wait (R62). -/
theorem entWait_iff (s : State) :
    s.entWait = true ↔ ∃ i snap prog, s.seq = .run i snap prog ∧
      ((∃ rd, i = .gsmp rd) ∨ (∃ rd, i = .gcdt rd) ∨ (∃ rd, i = .unif rd)) ∧ s.waits snap prog := by
  simp only [State.entWait, Bool.and_eq_true, Option.isNone_iff_eq_none]
  constructor
  · rintro ⟨hdraw, hnone⟩
    obtain ⟨i, snap, prog, hrun, hsampler, hmore, hsel⟩ := (drawsFrom_iff s s.portSelected).2 ⟨hdraw, rfl⟩
    exact ⟨i, snap, prog, hrun, hsampler, hmore, hsel ▸ hnone⟩
  · rintro ⟨i, snap, prog, hrun, hsampler, hmore, hnone⟩
    obtain ⟨hdraw, hsel⟩ := (drawsFrom_iff s snap.entSel).1 ⟨i, snap, prog, hrun, hsampler, hmore, rfl⟩
    exact ⟨hdraw, hsel ▸ hnone⟩

/-- Settles O42: `statusWord_bits` names the flags, and `busy_iff`, `ringValid_iff` and `entWait_iff` say what they mean. -/
theorem statusBitsSayWhatTheyStandFor : Obligations.StatusBitsSayWhatTheyStandFor := by
  intro s
  obtain ⟨hbusy, hdone, herr, hcfg, hwait, hrest⟩ := statusWord_bits s
  rw [show s.readReg 0x00C = s.statusWord from rfl, hbusy, hcfg, hwait]
  refine ⟨busy_iff s, hdone, herr, ringValid_iff s.build s.cfgN s.cfgQ, ?_, hrest⟩
  simp only [entWait_iff, State.waits, offered_eq_none_iff]

end Sys2Proof.Machine

/-! Hard reset (R64): the reset ring is valid in every build, and every register reads its reset value. -/

namespace Sys2Proof.Machine

theorem min_nmax_eq_two_pow (b : Build) : min 1024 b.nmax = 2 ^ min 10 b.log2Nmax :=
  ((pow_right_mono₀ (by decide : 1 ≤ 2)).map_min (a := 10) (b := b.log2Nmax)).symm

theorem toNat_resetN (b : Build) : b.resetN.toNat = min 1024 b.nmax := by
  rw [Build.resetN, BitVec.toNat_ofNat]
  exact Nat.mod_eq_of_lt (by omega)

theorem ringValid_reset (b : Build) : RingValid b b.resetN 0xFFFFFFFF := by
  refine ⟨⟨min 10 b.log2Nmax, ?_, ?_⟩, by decide, by decide⟩
  · rw [toNat_resetN, min_nmax_eq_two_pow]
  · rw [← min_nmax_eq_two_pow]
    exact min_le_right _ _

/-- After a hard reset CFG_VALID is the one bit of STATUS that is set. -/
theorem statusWord_hardReset (s : State) : s.hardReset.statusWord = 8 := by
  have hcfg : s.hardReset.cfgValid = true := (ringValid_iff _ _ _).2 (ringValid_reset s.build)
  unfold State.statusWord
  rw [hcfg]
  rfl

theorem hardReset_readsReset (s : State) : s.hardReset.ReadsReset :=
  ⟨rfl, rfl, rfl, statusWord_hardReset s, rfl, rfl, rfl, toNat_resetN s.build, rfl, rfl, rfl, rfl, rfl, rfl, rfl, rfl,
    rfl, rfl, rfl, rfl, ringValid_reset s.build, fun _ => rfl⟩

/-- Settles O35: a hard reset answers `State.hardReset`, and the machine's first state is its own hard reset. -/
theorem resetRegistersRead : Obligations.ResetRegistersRead :=
  ⟨fun _ _ _ hnext => ⟨_, step_cons hnext, rfl, hardReset_readsReset _⟩, hardReset_readsReset State.reset, rfl⟩

end Sys2Proof.Machine

/-! Host accesses by size and alignment (R82). -/

namespace Sys2Proof.Machine

/-- An access in the window that is not one aligned word is refused, whatever its act (R82). -/
theorem access_refused (s : State) {off size : Nat} (act : Nat → Host.Outcome State Fault Refusal)
    (h : off < windowSize) (hbad : size ≠ 4 ∨ off % 4 ≠ 0) :
    s.access (s.build.base + off) size act = .refused .notOneWord := by
  have hin : ¬ (s.build.base + off < s.build.base ∨ s.build.base + windowSize ≤ s.build.base + off) := by omega
  have hshape : ¬ (size = 4 ∧ off % 4 = 0) := by omega
  rw [State.access, if_neg hin, Nat.add_sub_cancel_left, if_neg hshape]

/-- So is the host's move that makes such an access, a read or a write. -/
theorem move_refused (s : State) {off size : Nat} {v : Word} {e : Input}
    (he : e = .read (s.build.base + off) size ∨ e = .write (s.build.base + off) size v)
    (h : off < windowSize) (hbad : size ≠ 4 ∨ off % 4 ≠ 0) : s.move e = .refused .notOneWord := by
  rcases he with rfl | rfl
  · exact access_refused s s.memRead h hbad
  · exact access_refused s (s.memWrite · v) h hbad

/-- Settles O25: any other shape is refused by `move_refused`, and an aligned word is `step_read` or `step_write`. -/
theorem onlyWholeWordsAreAccessed : Obligations.OnlyWholeWordsAreAccessed := by
  intro s addr size v rest e he hnext hlo hhi
  obtain ⟨off, rfl⟩ := Nat.exists_eq_add_of_le hlo
  have hoff : off < windowSize := Nat.lt_of_add_lt_add_left hhi
  rw [Nat.add_sub_cancel_left]
  refine ⟨fun hbad => (step_cons hnext).trans (move_refused _ he hoff hbad), ?_⟩
  rintro rfl h4
  rcases he with rfl | rfl
  · rw [if_pos rfl, step_read hnext hoff h4]
  · rw [if_neg nofun, step_write hnext hoff h4]

end Sys2Proof.Machine

/-! Reserved offsets and reserved register bits (R88). -/

namespace Sys2Proof.Machine

/-! ### Reserved offsets and read-only registers -/

/-- A write below the end of the registers goes to the register there, idle or running (R87). -/
theorem memWrite_register (s : State) {off : Nat} (v : Word) (h : off < 0x40) : s.memWrite off v = s.writeReg off v :=
  if_pos h

section
variable (s : State) {off : Nat} (h : 0x40 ≤ off) (hram : s.build.isRam off = false)
include h hram

theorem memRead_reserved : s.memRead off = .next (s.returns 0) := by
  have hreg : ¬ off < csrEnd := Nat.not_lt.2 h
  simp [State.memRead, hreg, hram]

theorem memWrite_reserved (v : Word) : s.memWrite off v = .next s := by
  have hreg : ¬ off < csrEnd := Nat.not_lt.2 h
  simp [State.memWrite, hreg, hram]

end

/-- A write to ID, CAPS, ERRCODE, ERRINFO or ENT_LEVEL is ignored (R88). -/
theorem writeReg_readOnly (s : State) (v : Word) :
    ∀ off ∈ [0x000, 0x004, 0x014, 0x018, 0x03C], s.writeReg off v = .next s := by
  simp [State.writeReg]

/-! ### Reads of reserved bits -/

/-- ENT_LEVEL reads the FIFO's length exactly while it fits the register. -/
theorem toNat_entLevel {s : State} (h : s.fifo.length < 2 ^ 32) : (s.readReg 0x03C).toNat = s.fifo.length :=
  (BitVec.toNat_ofNat _ _).trans (Nat.mod_eq_of_lt h)

/-- The gaps between the fields of CAPS read 0 in every build, legal or not (R38). -/
theorem capsWord_reserved (b : Build) :
    (capsWord b).extractLsb' 5 3 = 0 ∧ (capsWord b).extractLsb' 13 3 = 0 := by
  constructor
  · rw [capsWord, BitVec.extractLsb'_append_eq_of_le (v := 27) (by decide)]
    exact BitVec.extractLsb'_append_eq_right
  · rw [capsWord, BitVec.extractLsb'_append_eq_of_le (v := 27) (by decide),
      BitVec.extractLsb'_append_eq_of_le (v := 24) (by decide),
      BitVec.extractLsb'_append_eq_of_le (v := 19) (by decide)]
    exact BitVec.extractLsb'_append_eq_right

theorem toNat_lt_of_ushiftRight_eq_zero {w : Word} {k : Nat} (h : w >>> k = 0) : w.toNat < 2 ^ k := by
  have hdiv : w.toNat / 2 ^ k = 0 := by
    rw [← Nat.shiftRight_eq_div_pow, ← BitVec.toNat_ushiftRight, h]
    rfl
  exact (Nat.div_eq_zero_iff_lt (Nat.two_pow_pos k)).1 hdiv

theorem ctrlWord_lt (s : State) : s.ctrlWord.toNat < 2 ^ 3 := by
  obtain ⟨-, -, -, hrest⟩ := ctrlWord_bits s
  exact toNat_lt_of_ushiftRight_eq_zero hrest

theorem statusWord_lt (s : State) : s.statusWord.toNat < 2 ^ 5 := by
  obtain ⟨-, -, -, -, -, hrest⟩ := statusWord_bits s
  exact toNat_lt_of_ushiftRight_eq_zero hrest

/-- A register of k bits reads below 2^k. -/
theorem toNat_setWidth_word_lt {k : Nat} (hk : k ≤ 32) (x : BitVec k) : (x.setWidth 32 : Word).toNat < 2 ^ k := by
  rw [BitVec.toNat_setWidth_of_le hk]
  exact x.isLt

/-! ### Writes of reserved bits -/

/-- A CTRL write depends on bits 0 to 4 alone (R39). -/
theorem writeCtrl_mask (s : State) (v : Word) : s.writeCtrl (v &&& 0x1F) = s.writeCtrl v := by
  simp [State.writeCtrl]

/-- A STATUS write depends on bits 1 and 2 alone (R40). -/
theorem acknowledge_mask (s : State) (v : Word) : s.acknowledge (v &&& 0x6) = s.acknowledge v := by
  simp [State.acknowledge]

/-- Cutting a word to k bits drops what a mask of those k bits drops. -/
theorem setWidth_and_mask {k : Nat} {m : Word} (hm : m.setWidth k = BitVec.allOnes k) (v : Word) :
    (v &&& m).setWidth k = v.setWidth k := by
  rw [BitVec.setWidth_and, hm, BitVec.and_allOnes]

/-- Settles O37: the reserved offsets by `isRam_iff`, the registers' reserved bits by their words' bounds when read and by the
masks when written. -/
theorem reservedPlacesReadZeroAndIgnoreWrites : Obligations.ReservedPlacesReadZeroAndIgnoreWrites := by
  refine ⟨?_, ?_, ?_, ?_⟩
  · intro s off v _ h4 hreg hram
    have hram : s.build.isRam off = false := by rwa [← Bool.not_eq_true, isRam_iff h4]
    exact ⟨memRead_reserved s hreg hram, memWrite_reserved s hreg hram v⟩
  · intro s v off hoff
    have hreg : off < 0x40 := by revert off; decide
    rw [memWrite_register s v hreg, writeReg_readOnly s v off hoff]
  · intro s hlegal hfits
    obtain ⟨-, -, ⟨-, hent⟩, -, -⟩ := hlegal
    have hlevel := toNat_entLevel (s := s) (by omega)
    exact ⟨hlevel, by omega⟩
  · intro s v
    have hcaps := capsWord_reserved s.build
    refine ⟨hcaps.1, hcaps.2, ctrlWord_lt s, statusWord_lt s, toNat_setWidth_word_lt (by decide) s.errCode,
      toNat_setWidth_word_lt (by decide) s.frac, toNat_setWidth_word_lt (by decide) s.cdtLen, ?_, ?_, ?_, ?_⟩ <;>
      simp only [memWrite_register, Nat.reduceLT, State.writeReg]
    · rw [writeCtrl_mask]
    · rw [acknowledge_mask]
    · rw [setWidth_and_mask rfl]
    · rw [setWidth_and_mask rfl]

end Sys2Proof.Machine

/-! Entropy (R99): which moves change the FIFO and the port's offer. -/

namespace Sys2Proof.Machine

theorem entReady_iff (s : State) : s.entReady = true ↔ s.drawsFrom true := by
  rw [drawsFrom_iff, State.entReady, Bool.and_eq_true]

theorem drawsFrom_of_run {s : State} {i : Instr} {snap : Snapshot} {prog : Progress} (run : s.seq = .run i snap prog)
    (sampler : isSampler i = true) (more : prog.scratch.length < snap.n.toNat) : s.drawsFrom snap.entSel := by
  rw [drawsFrom_iff]
  simp [State.drawing, State.portSelected, run, sampler, more]

section
variable {s t : State} {off : Nat} {v : Word}

/-- No host read takes an entropy word. -/
theorem hostRead_keeps_entropy (h : HostRead s off t) : t.fifo = s.fifo ∧ t.entPort = s.entPort := by
  cases h <;> exact ⟨rfl, rfl⟩

/-- A host write leaves the FIFO as it is, pushes the word written, or empties it by a CTRL write (R39, R51). -/
theorem hostWrite_fifo (h : HostWrite s off v t) :
    t.fifo = s.fifo ∨ (off = 0x038 ∧ t.fifo = s.fifo ++ [v]) ∨
      (off = 0x008 ∧ t.fifo = [] ∧ (v.getLsbD 3 = true ∨ v.getLsbD 4 = true)) := by
  cases h with
  | softReset hat bit => exact .inr (.inr ⟨hat, rfl, .inl bit⟩)
  | ctrl hat _ fifo flush =>
    rcases flush with rfl | ⟨rfl, bit⟩
    · exact .inl rfl
    · exact .inr (.inr ⟨hat, rfl, .inr bit⟩)
  | push hat => exact .inr (.inl ⟨hat, rfl⟩)
  | config t reg => cases reg <;> exact .inl rfl
  | _ => exact .inl rfl

theorem hostWrite_keeps_entPort (h : HostWrite s off v t) : t.entPort = s.entPort := by
  cases h with
  | config t reg => cases reg <;> rfl
  | _ => rfl

/-- The sequencer takes the FIFO's head by a Draw, or leaves the FIFO as it is. -/
theorem seqStep_fifo (h : SeqStep s t) : t.fifo = s.fifo ∨ ∃ u, s.fifo = u :: t.fifo ∧ s.drawsFrom false := by
  cases h with
  | draw i snap prog prog' u run sampler more offer =>
    have hdraws := drawsFrom_of_run run sampler more
    cases hsel : snap.entSel with
    | true => exact .inl rfl
    | false =>
      rw [hsel] at hdraws offer
      exact .inr ⟨u, (List.cons_head?_tail offer).symm, hdraws⟩
  | _ => exact .inl rfl

/-- The sequencer takes the port's word by a Draw, or leaves the port's offer as it is. -/
theorem seqStep_entPort (h : SeqStep s t) : t.entPort = s.entPort ∨ (t.entPort = none ∧ s.drawsFrom true) := by
  cases h with
  | draw i snap prog prog' u run sampler more =>
    have hdraws := drawsFrom_of_run run sampler more
    cases hsel : snap.entSel with
    | true => exact .inr ⟨rfl, hsel ▸ hdraws⟩
    | false => exact .inl rfl
  | _ => exact .inl rfl

end

section
variable {s t : State} (h : step s = .next t)
include h

/-- What a step does to the FIFO, by whose move it is. -/
theorem step_fifo :
    t.fifo = s.fifo ∨
      (∃ w rest, s.inputs = .write (s.build.base + 0x038) 4 w :: rest ∧ t.fifo = s.fifo ++ [w]) ∨
      (t.fifo = [] ∧ ∃ rest, s.inputs = .hardReset :: rest ∨
        ∃ v, s.inputs = .write (s.build.base + 0x008) 4 v :: rest ∧ (v.getLsbD 3 = true ∨ v.getLsbD 4 = true)) ∨
      (∃ u, s.fifo = u :: t.fifo ∧ s.drawsFrom false ∧ s.sequencerMoves) := by
  rcases step_cases h with ⟨hmoves, hseq⟩ | ⟨_, _, -, rfl⟩ | ⟨rest, hin, rfl⟩ | ⟨_, _, -, -, -, hread⟩ |
    ⟨off, v, rest, hin, -, -, hwrite⟩
  · rcases seqStep_fifo hseq with hkept | ⟨u, hhead, hdraws⟩
    · exact .inl hkept
    · exact .inr (.inr (.inr ⟨u, hhead, hdraws, hmoves⟩))
  · exact .inl rfl
  · exact .inr (.inr (.inl ⟨rfl, rest, .inl hin⟩))
  · exact .inl (hostRead_keeps_entropy (hostRead_of_memRead hread)).1
  · rcases hostWrite_fifo (hostWrite_of_memWrite hwrite) with hkept | ⟨rfl, hpush⟩ | ⟨rfl, hempty, hbit⟩
    · exact .inl hkept
    · exact .inr (.inl ⟨v, rest, hin, hpush⟩)
    · exact .inr (.inr (.inl ⟨hempty, rest, .inr ⟨v, hin, hbit⟩⟩))

/-- What a step does to the port's offer, by whose move it is. -/
theorem step_entPort :
    t.entPort = s.entPort ∨ (∃ rest, s.inputs = .entropy t.entPort :: rest) ∨
      (t.entPort = none ∧ s.drawsFrom true ∧ s.sequencerMoves) := by
  rcases step_cases h with ⟨hmoves, hseq⟩ | ⟨_, rest, hin, rfl⟩ | ⟨_, -, rfl⟩ | ⟨_, _, -, -, -, hread⟩ |
    ⟨_, _, _, -, -, -, hwrite⟩
  · rcases seqStep_entPort hseq with hkept | ⟨hnone, hdraws⟩
    · exact .inl hkept
    · exact .inr (.inr ⟨hnone, hdraws, hmoves⟩)
  · exact .inr (.inl ⟨rest, hin⟩)
  · exact .inl rfl
  · exact .inl (hostRead_keeps_entropy (hostRead_of_memRead hread)).2
  · exact .inl (hostWrite_keeps_entPort (s := s.pop) (hostWrite_of_memWrite hwrite))

end

/-- Settles O45: `step_fifo` and `step_entPort` for the steps, `entReady_iff` for the line to the entropy source. -/
theorem entropyIsConsumedOnlyByDraws : Obligations.EntropyIsConsumedOnlyByDraws :=
  ⟨fun s => ⟨rfl, rfl, entReady_iff s⟩, fun _ _ h => ⟨step_fifo h, step_entPort h⟩⟩

end Sys2Proof.Machine

/-! The decoder's three answers (R113–R115): which words get which, and what each rejected word looks like. -/

namespace Sys2Proof

/-! ### The opcode map -/

/-- The OPC values that no row of R113 lists are the three ranges of R115. -/
theorem ofCode?_eq_none_iff (c : BitVec 8) :
    Opcode.ofCode? c = none ↔
      (0x09 ≤ c.toNat ∧ c.toNat ≤ 0x0F) ∨ (0x13 ≤ c.toNat ∧ c.toNat ≤ 0x1F) ∨ 0x21 ≤ c.toNat := by
  unfold Opcode.ofCode?
  split
  case h_14 => simp only [imp_false, true_iff] at *; omega
  all_goals simp only [reduceCtorEq, false_iff]; omega

theorem ofCode?_eq_none_iff_unlisted (c : BitVec 8) : Opcode.ofCode? c = none ↔ ∀ op : Opcode, c ≠ op.code := by
  constructor
  · rintro hnone op rfl
    rw [ofCode?_code] at hnone
    cases hnone
  · intro hunlisted
    cases h : Opcode.ofCode? c with
    | none => rfl
    | some op => exact absurd (code_of_ofCode? h).symm (hunlisted op)

/-! ### The decoder, one equation per answer -/

section
variable {w : Word} {op : Opcode}

theorem decode_of_unlisted (h : ∀ op : Opcode, fieldOpc w ≠ op.code) : decode w = .error .undefinedOpcode := by
  rw [decode, (ofCode?_eq_none_iff_unlisted _).2 h]

theorem decode_of_not_masked (hopc : fieldOpc w = op.code) (h : w &&& op.mask ≠ op.matchWord) :
    decode w = .error .reservedBits := by
  simp [decode, hopc, ofCode?_code, h]

theorem decode_of_masked (h : w &&& op.mask = op.matchWord) :
    decode w = .ok (op.instr (fieldRd w) (fieldRa w) (fieldRb w)) := by
  have hopc : fieldOpc w = op.code := ((masked_iff w op).1 h).1
  simp [decode, hopc, ofCode?_code, h]

/-- A word decodes to a command of the opcode whose mask and match select it, and to no other (R113). -/
theorem decode_selects_iff : (∃ i, decode w = .ok i ∧ i.opcode = op) ↔ w &&& op.mask = op.matchWord := by
  constructor
  · rintro ⟨i, hdec, rfl⟩
    rcases decode_cases w with ⟨-, h⟩ | ⟨_, -, -, h⟩ | ⟨op, -, hmask, h⟩ <;> rw [hdec] at h <;> cases h
    rwa [opcode_instr]
  · intro hmask
    exact ⟨_, decode_of_masked hmask, opcode_instr ..⟩

theorem decode_undefined_iff : decode w = .error .undefinedOpcode ↔ Opcode.ofCode? (fieldOpc w) = none := by
  rw [ofCode?_eq_none_iff_unlisted]
  refine ⟨fun hdec => ?_, decode_of_unlisted⟩
  rcases decode_cases w with ⟨hunlisted, -⟩ | ⟨_, -, -, h⟩ | ⟨_, -, -, h⟩
  · exact hunlisted
  all_goals rw [hdec] at h; cases h

theorem decode_reserved_iff (hopc : fieldOpc w = op.code) :
    decode w = .error .reservedBits ↔ w &&& op.mask ≠ op.matchWord := by
  refine ⟨fun hdec hmask => ?_, decode_of_not_masked hopc⟩
  rw [decode_of_masked hmask] at hdec
  cases hdec

/-- A listed word misses its match by a nonzero bit that its form does not use (R114). -/
theorem not_masked_iff (hopc : fieldOpc w = op.code) :
    w &&& op.mask ≠ op.matchWord ↔
      w.extractLsb' 20 12 ≠ 0 ∨ (op.form ≠ .dab ∧ fieldRb w ≠ 0) ∨
        ((op.form = .z ∨ op.form = .d) ∧ fieldRa w ≠ 0) ∨ (op.form = .z ∧ fieldRd w ≠ 0) := by
  have hform : (op.form = .dab ∨ op.form = .da) ↔ ¬ (op.form = .z ∨ op.form = .d) := by
    cases op.form <;> decide
  rw [ne_eq, masked_iff, hform]
  tauto

end

end Sys2Proof

/-! A CMD write (R120): the outcome of each check, in their order. -/

namespace Sys2Proof.Machine

/-! ### The write, by what the block does with its word -/

section
variable {s : State} {w : Word}

theorem writeCmd_of_busy (h : s.seq ≠ .idle) : s.writeCmd w = .next (s.raiseError .busy w) :=
  if_pos ((busy_iff s).2 h)

theorem writeCmd_of_error {e : DecodeError} (hidle : s.seq = .idle) (h : decode w = .error e) :
    s.writeCmd w = .next (s.raiseError (DecodeError.errCode e) w) := by
  simp [State.writeCmd, busy_of_idle hidle, h]

theorem writeCmd_of_ok {i : Instr} (hidle : s.seq = .idle) (h : decode w = .ok i) :
    s.writeCmd w = .next (s.submit i (cfgOk i s)) := by
  simp [State.writeCmd, busy_of_idle hidle, h, exec_idle hidle]

/-- The step in which the host writes CMD is the CMD write on the state without that move. -/
theorem step_writeCmd {rest : List Input} (h : s.inputs = .write (s.build.base + 0x010) 4 w :: rest) :
    step s = ({ s with inputs := rest } : State).writeCmd w := by
  rw [step_write h (by decide) (by decide), memWrite_register _ _ (by decide)]
  rfl

end

/-! ### The checks that follow decoding -/

theorem submit_of_cfg_bad {s : State} {i : Instr} {ok : Bool} (hcfg : ok ≠ true) :
    s.submit i ok = s.raiseError .cfg (encode i) :=
  if_neg hcfg

theorem submit_of_bank_bad {s : State} {i : Instr} (hbank : ∃ f ∈ i.banks, s.build.nb ≤ f.toNat) :
    s.submit i true = s.raiseError .bank (encode i) := by
  have hwf : ¬ i.wf s.build.nb = true := by
    simpa only [wf_iff, not_forall, not_lt, exists_prop] using hbank
  simp [State.submit, hwf]

theorem submit_of_fits {s : State} {i : Instr} (hbanks : ∀ f ∈ i.banks, f.toNat < s.build.nb) :
    s.submit i true = s.accept i := by
  simp [State.submit, (wf_iff i s.build.nb).2 hbanks]

/-- The configuration check of a command is the one R120 has for its opcode. -/
theorem cfgOk_instr_iff (op : Opcode) (rd ra rb : BankIx) (s : State) :
    cfgOk (op.instr rd ra rb) s = true ↔ ConfigFits op s := by
  have hring : s.cfgValid = true ↔ RingValid s.build s.cfgN s.cfgQ := ringValid_iff ..
  have htable : s.cdtLen.toNat ≤ cdtMax ↔ s.cdtLen.toNat ≤ 64 := Iff.rfl
  cases op <;> simp [cfgOk, Opcode.instr, ConfigFits, hring, htable]

/-- The bank fields checked are those the word's form uses. -/
theorem banks_instr_of_word (op : Opcode) (w : Word) :
    (op.instr (fieldRd w) (fieldRa w) (fieldRb w)).banks = usedFields op.form w := by
  cases op <;> rfl

/-- On an idle block a word that its mask and match select is submitted: the configuration check, then the bank fields, then
acceptance. -/
theorem writeCmd_of_masked {s : State} {w : Word} {op : Opcode} (hidle : s.seq = .idle)
    (hmask : w &&& op.mask = op.matchWord) :
    (¬ ConfigFits op s → s.writeCmd w = .next (s.raiseError .cfg w)) ∧
    (ConfigFits op s → (∃ f ∈ usedFields op.form w, s.build.nb ≤ f.toNat) →
      s.writeCmd w = .next (s.raiseError .bank w)) ∧
    (ConfigFits op s → (∀ f ∈ usedFields op.form w, f.toNat < s.build.nb) →
      s.writeCmd w = .next { s with
        cmd := w
        seq := .run (op.instr (fieldRd w) (fieldRa w) (fieldRb w)) s.snapshot Progress.start }) := by
  have hword := encode_instr_of_masked hmask
  rw [writeCmd_of_ok hidle (decode_of_masked hmask), ← banks_instr_of_word,
    ← cfgOk_instr_iff op (fieldRd w) (fieldRa w) (fieldRb w)]
  refine ⟨fun hcfg => ?_, fun hcfg hbank => ?_, fun hcfg hbanks => ?_⟩
  · rw [submit_of_cfg_bad hcfg, hword]
  · rw [hcfg, submit_of_bank_bad hbank, hword]
  · rw [hcfg, submit_of_fits hbanks, State.accept, hword]

/-! ### The statements -/

/-- Settles O3: `decode_selects_iff` for the listed words, `decode_of_unlisted` for the others; the table is evaluated. -/
theorem maskAndMatchSelectTheCommand : Obligations.MaskAndMatchSelectTheCommand :=
  ⟨fun _ _ => decode_selects_iff, fun _ => decode_of_unlisted, by decide⟩

/-- Settles O4: which words by `not_masked_iff` and `ofCode?_eq_none_iff`, and how an idle block rejects them by
`writeCmd_of_error`. -/
theorem reservedAndUndefinedWordsAreRejected : Obligations.ReservedAndUndefinedWordsAreRejected :=
  ⟨fun _ _ hopc => (decode_reserved_iff hopc).trans (not_masked_iff hopc),
    fun _ => decode_undefined_iff.trans (ofCode?_eq_none_iff _),
    fun _ _ hidle => ⟨writeCmd_of_error hidle, writeCmd_of_error hidle⟩⟩

/-- Settles O7: the step is the CMD write (`step_writeCmd`), whose checks are `writeCmd_of_busy`, `writeCmd_of_error` for the
two rejections of the decoder, and `writeCmd_of_masked` for the rest. -/
theorem commandWriteMakesTheAcceptanceChecks : Obligations.CommandWriteMakesTheAcceptanceChecks := by
  intro s w rest hnext
  rw [step_writeCmd hnext]
  refine ⟨writeCmd_of_busy (s := { s with inputs := rest }), fun hidle => ?_⟩
  replace hidle : State.seq { s with inputs := rest } = .idle := hidle
  refine ⟨fun hunlisted => ?_, fun op hopc => ⟨fun hmask => ?_, writeCmd_of_masked hidle⟩⟩
  · exact writeCmd_of_error hidle (decode_of_unlisted hunlisted)
  · exact writeCmd_of_error hidle (decode_of_not_masked hopc hmask)

end Sys2Proof.Machine

/-! The ring of residue polynomials (R144–R147, R166): a product's powers x^m fold to one signed coefficient each, from which
the laws of the multiplication follow over the integers; congruences modulo Q carry them and those of the addition to words. -/

namespace Sys2Proof.Machine

/-! ### The sign of a folded power -/

/-- The coefficient of x^k in x^m modulo x^n + 1, for k < n: every n factors of x change the sign (R144). -/
def foldSign (n k m : Nat) : Int := if m % n = k then (-1) ^ (m / n) else 0

section
variable {n k m : Nat}

theorem foldSign_of_lt (hm : m < n) : foldSign n k m = if m = k then 1 else 0 := by
  simp [foldSign, Nat.mod_eq_of_lt hm, Nat.div_eq_of_lt hm]

theorem foldSign_add_mul (hn : 0 < n) (t : Nat) : foldSign n k (m + n * t) = (-1) ^ t * foldSign n k m := by
  simp only [foldSign, Nat.add_mul_mod_self_left, Nat.add_mul_div_left _ _ hn, mul_ite, mul_zero]
  rw [pow_add, mul_comm ((-1) ^ (m / n))]

theorem foldSign_add_self (hn : 0 < n) : foldSign n k (m + n) = -foldSign n k m := by
  simpa using foldSign_add_mul (k := k) (m := m) hn 1

/-- Below 2n, the degree of the full product, one fold is enough. -/
theorem foldSign_of_lt_two_mul (hk : k < n) (hm : m < 2 * n) :
    foldSign n k m = if m = k then 1 else if m = k + n then -1 else 0 := by
  rcases Nat.lt_or_ge m n with hlt | hge
  · rw [foldSign_of_lt hlt, if_neg (c := m = k + n) (by omega)]
  · obtain ⟨d, rfl⟩ := Nat.exists_eq_add_of_le' hge
    have hne : d + n ≠ k := by omega
    rw [foldSign_add_self (by omega), foldSign_of_lt (by omega), if_neg hne]
    simp only [Nat.add_right_cancel_iff]
    split <;> rfl

/-- Folding x^m first and the rest of the power after it is folding the whole power. -/
theorem sum_foldSign_mul_foldSign (hn : 0 < n) (l : Nat) :
    ∑ p ∈ Finset.range n, foldSign n p m * foldSign n k (p + l) = foldSign n k (m + l) := by
  have hm : m + l = m % n + l + n * (m / n) := by
    have := Nat.mod_add_div m n
    omega
  rw [Finset.sum_eq_single (m % n), hm, foldSign_add_mul hn]
  · rw [foldSign, if_pos rfl]
  · intro p _ hne
    rw [foldSign, if_neg hne.symm, zero_mul]
  · intro hout
    exact absurd (Finset.mem_range.2 (Nat.mod_lt m hn)) hout

end

/-! ### The product over the integers -/

section
variable {n k : Nat} (hk : k < n)
include hk

theorem mulCoeff_eq_sum_foldSign (x y : Nat → Int) :
    mulCoeff n x y k = ∑ i ∈ Finset.range n, ∑ j ∈ Finset.range n, x i * y j * foldSign n k (i + j) := by
  rw [mulCoeff_eq_sum n k hk]
  refine Finset.sum_congr rfl fun i hi => Finset.sum_congr rfl fun j hj => ?_
  rw [Finset.mem_range] at hi hj
  rw [foldSign_of_lt_two_mul hk (by omega)]
  simp

theorem mulCoeff_comm (x y : Nat → Int) : mulCoeff n x y k = mulCoeff n y x k := by
  rw [mulCoeff_eq_sum_foldSign hk, mulCoeff_eq_sum_foldSign hk, Finset.sum_comm]
  simp only [mul_comm, Nat.add_comm]

theorem mulCoeff_add_right (x y z : Nat → Int) :
    mulCoeff n x (fun i => y i + z i) k = mulCoeff n x y k + mulCoeff n x z k := by
  simp only [mulCoeff_eq_sum_foldSign hk, mul_add, add_mul, Finset.sum_add_distrib]

/-- The coefficients of x·y against a fold of x^p·x^l: the inner product's own fold is absorbed. -/
theorem sum_mulCoeff_mul_foldSign (x y : Nat → Int) (l : Nat) :
    ∑ p ∈ Finset.range n, mulCoeff n x y p * foldSign n k (p + l) =
      ∑ i ∈ Finset.range n, ∑ j ∈ Finset.range n, x i * y j * foldSign n k (i + j + l) := by
  have hn : 0 < n := by omega
  calc ∑ p ∈ Finset.range n, mulCoeff n x y p * foldSign n k (p + l)
      = ∑ p ∈ Finset.range n, ∑ i ∈ Finset.range n, ∑ j ∈ Finset.range n,
          x i * y j * (foldSign n p (i + j) * foldSign n k (p + l)) := by
        refine Finset.sum_congr rfl fun p hp => ?_
        rw [mulCoeff_eq_sum_foldSign (Finset.mem_range.1 hp)]
        simp only [Finset.sum_mul, mul_assoc]
    _ = ∑ i ∈ Finset.range n, ∑ j ∈ Finset.range n, ∑ p ∈ Finset.range n,
          x i * y j * (foldSign n p (i + j) * foldSign n k (p + l)) := by
        rw [Finset.sum_comm]
        exact Finset.sum_congr rfl fun i _ => Finset.sum_comm
    _ = ∑ i ∈ Finset.range n, ∑ j ∈ Finset.range n, x i * y j * foldSign n k (i + j + l) := by
        simp only [← Finset.mul_sum, sum_foldSign_mul_foldSign hn]

/-- The product of three polynomials as one triple sum, in which every power is folded once. -/
theorem mulCoeff_mulCoeff (x y z : Nat → Int) :
    mulCoeff n (mulCoeff n x y) z k =
      ∑ l ∈ Finset.range n, ∑ i ∈ Finset.range n, ∑ j ∈ Finset.range n,
        z l * (x i * y j * foldSign n k (i + j + l)) := by
  rw [mulCoeff_eq_sum_foldSign hk, Finset.sum_comm]
  refine Finset.sum_congr rfl fun l _ => ?_
  simp only [← Finset.mul_sum, ← sum_mulCoeff_mul_foldSign hk, mul_right_comm _ (z l), ← Finset.sum_mul]
  rw [mul_comm]

/-- Both products are the triple sum, whose indices are renamed. -/
theorem mulCoeff_assoc (x y z : Nat → Int) :
    mulCoeff n (mulCoeff n x y) z k = mulCoeff n x (mulCoeff n y z) k := by
  rw [mulCoeff_comm hk x, mulCoeff_mulCoeff hk, mulCoeff_mulCoeff hk, Finset.sum_comm]
  refine Finset.sum_congr rfl fun i _ => ?_
  rw [Finset.sum_comm]
  refine Finset.sum_congr rfl fun j _ => Finset.sum_congr rfl fun l _ => ?_
  rw [show j + l + i = i + j + l by omega]
  ring

/-- Folding leaves a polynomial of degree below n as it is. -/
theorem sum_mul_foldSign (x : Nat → Int) : ∑ i ∈ Finset.range n, x i * foldSign n k i = x k := by
  calc ∑ i ∈ Finset.range n, x i * foldSign n k i = ∑ i ∈ Finset.range n, if i = k then x i else 0 := by
        refine Finset.sum_congr rfl fun i hi => ?_
        rw [foldSign_of_lt (Finset.mem_range.1 hi), mul_ite, mul_one, mul_zero]
    _ = x k := by simp [hk]

/-- Multiplying by x^j moves every coefficient by j places and folds it. -/
theorem mulCoeff_power (x : Nat → Int) {j : Nat} (hj : j < n) :
    mulCoeff n x (fun m => if m = j then 1 else 0) k = ∑ i ∈ Finset.range n, x i * foldSign n k (i + j) := by
  simp [mulCoeff_eq_sum_foldSign hk, hj]

/-- The coefficients matter modulo Q only. -/
theorem mulCoeff_modEq {q : Int} {x x' y y' : Nat → Int} (hx : ∀ i < n, x i ≡ x' i [ZMOD q])
    (hy : ∀ i < n, y i ≡ y' i [ZMOD q]) : mulCoeff n x y k ≡ mulCoeff n x' y' k [ZMOD q] := by
  simp only [mulCoeff_eq_sum_foldSign hk]
  refine Int.ModEq.sum fun i hi => Int.ModEq.sum fun j hj => ?_
  exact ((hx i (Finset.mem_range.1 hi)).mul (hy j (Finset.mem_range.1 hj))).mul_right _

end

/-! ### Residue polynomials -/

/-- The coefficients of a polynomial as the numbers in [0, Q) that the lanes work on (R116). -/
def residues (q : Word) (a : Nat → Word) (i : Nat) : Int := res q (a i)

theorem polyMul_eq (n : Nat) (q : Word) (a b : Nat → Word) (k : Nat) :
    polyMul n q a b k = modQ q (mulCoeff n (residues q a) (residues q b) k) := rfl

theorem polyAdd_eq (q : Word) (a b : Nat → Word) (k : Nat) :
    polyAdd q a b k = modQ q (residues q a k + residues q b k) := rfl

theorem polyNeg_eq (q : Word) (a : Nat → Word) (k : Nat) : polyNeg q a k = modQ q (0 - residues q a k) := rfl

theorem residues_of_lt {q : Word} {a : Nat → Word} {k : Nat} (h : (a k).toNat < q.toNat) :
    residues q a k = (a k).toNat := by
  rw [residues, res_of_lt h]

theorem modQ_residues {q : Word} {a : Nat → Word} {k : Nat} (h : (a k).toNat < q.toNat) :
    modQ q (residues q a k) = a k := by
  rw [residues_of_lt h, modQ_of_lt h]

theorem toNat_monomial (i k : Nat) : (monomial i k).toNat = if k = i then 1 else 0 := by
  unfold monomial
  split <;> rfl

theorem monomial_lt {q : Word} (hq : 1 < q.toNat) (i k : Nat) : (monomial i k).toNat < q.toNat := by
  rw [toNat_monomial]
  split <;> omega

theorem residues_monomial {q : Word} (hq : 1 < q.toNat) (i : Nat) :
    residues q (monomial i) = fun k => if k = i then 1 else 0 := by
  funext k
  rw [residues_of_lt (monomial_lt hq i k), toNat_monomial]
  split <;> rfl

/-- Below x^n a power folds to itself. -/
theorem foldSign_eq_monomial {n k m : Nat} (hm : m < n) : foldSign n k m = (monomial m k).toNat := by
  rw [foldSign_of_lt hm, toNat_monomial, Nat.cast_ite, Nat.cast_one, Nat.cast_zero]
  simp only [eq_comm]

section
variable {q : Word} (hq : 0 < q.toNat)
include hq

/-- A word reduced from an integer has that integer's residue. -/
theorem residues_modEq {a : Nat → Word} {k : Nat} {x : Int} (h : a k = modQ q x) : residues q a k ≡ x [ZMOD q.toNat] := by
  rw [residues, h, res_modQ x hq]
  exact Int.mod_modEq ..

theorem residues_polyMul (n : Nat) (a b : Nat → Word) (k : Nat) :
    residues q (polyMul n q a b) k ≡ mulCoeff n (residues q a) (residues q b) k [ZMOD q.toNat] :=
  residues_modEq hq (polyMul_eq ..)

theorem residues_polyAdd (a b : Nat → Word) (k : Nat) :
    residues q (polyAdd q a b) k ≡ residues q a k + residues q b k [ZMOD q.toNat] :=
  residues_modEq hq (polyAdd_eq ..)

theorem residues_polyNeg (a : Nat → Word) (k : Nat) :
    residues q (polyNeg q a) k ≡ 0 - residues q a k [ZMOD q.toNat] :=
  residues_modEq hq (polyNeg_eq ..)

end

/-! ### Addition -/

section
variable {q : Word}

theorem polyAdd_zero {a : Nat → Word} {k : Nat} (ha : (a k).toNat < q.toNat) : polyAdd q a polyZero k = a k := by
  have hzero : residues q polyZero k = 0 := by simp [residues, polyZero, res]
  rw [polyAdd_eq, hzero, add_zero, modQ_residues ha]

theorem polyAdd_polyNeg (hq : 0 < q.toNat) (a : Nat → Word) (k : Nat) :
    polyAdd q a (polyNeg q a) k = polyZero k := by
  have hsum : residues q a k + residues q (polyNeg q a) k ≡ 0 [ZMOD q.toNat] := by
    simpa using (residues_polyNeg hq a k).add_left (residues q a k)
  rw [polyAdd_eq, modQ_congr hsum]
  simp [modQ, polyZero]

theorem polyAdd_comm (a b : Nat → Word) (k : Nat) : polyAdd q a b k = polyAdd q b a k := by
  rw [polyAdd_eq, polyAdd_eq, add_comm]

theorem polyAdd_assoc (hq : 0 < q.toNat) (a b c : Nat → Word) (k : Nat) :
    polyAdd q (polyAdd q a b) c k = polyAdd q a (polyAdd q b c) k := by
  rw [polyAdd_eq, polyAdd_eq q a]
  apply modQ_congr
  calc residues q (polyAdd q a b) k + residues q c k
      ≡ residues q a k + residues q b k + residues q c k [ZMOD q.toNat] := (residues_polyAdd hq a b k).add_right _
    _ = residues q a k + (residues q b k + residues q c k) := add_assoc ..
    _ ≡ residues q a k + residues q (polyAdd q b c) k [ZMOD q.toNat] := (residues_polyAdd hq b c k).symm.add_left _

end

/-- Settles O55, one law of the group each. -/
theorem additionIsAnAbelianGroup : Obligations.AdditionIsAnAbelianGroup := by
  intro n q a b c hq ha _ _ k hk
  have hpos : 0 < q.toNat := by omega
  exact ⟨polyAdd_zero (ha k hk), polyAdd_polyNeg hpos a k, polyAdd_comm a b k, polyAdd_assoc hpos a b c k⟩

/-! ### Multiplication -/

section
variable {n k : Nat} {q : Word} (hk : k < n)
include hk

theorem polyMul_comm (a b : Nat → Word) : polyMul n q a b k = polyMul n q b a k := by
  rw [polyMul_eq, polyMul_eq, mulCoeff_comm hk]

theorem polyMul_assoc (hq : 0 < q.toNat) (a b c : Nat → Word) :
    polyMul n q (polyMul n q a b) c k = polyMul n q a (polyMul n q b c) k := by
  rw [polyMul_eq, polyMul_eq n q a]
  apply modQ_congr
  calc mulCoeff n (residues q (polyMul n q a b)) (residues q c) k
      ≡ mulCoeff n (mulCoeff n (residues q a) (residues q b)) (residues q c) k [ZMOD q.toNat] :=
        mulCoeff_modEq hk (fun i _ => residues_polyMul hq n a b i) fun _ _ => rfl
    _ = mulCoeff n (residues q a) (mulCoeff n (residues q b) (residues q c)) k := mulCoeff_assoc hk ..
    _ ≡ mulCoeff n (residues q a) (residues q (polyMul n q b c)) k [ZMOD q.toNat] :=
        mulCoeff_modEq hk (fun _ _ => rfl) fun i _ => (residues_polyMul hq n b c i).symm

theorem polyMul_polyAdd (hq : 0 < q.toNat) (a b c : Nat → Word) :
    polyMul n q a (polyAdd q b c) k = polyAdd q (polyMul n q a b) (polyMul n q a c) k := by
  rw [polyMul_eq, polyAdd_eq]
  apply modQ_congr
  calc mulCoeff n (residues q a) (residues q (polyAdd q b c)) k
      ≡ mulCoeff n (residues q a) (fun i => residues q b i + residues q c i) k [ZMOD q.toNat] :=
        mulCoeff_modEq hk (fun _ _ => rfl) fun i _ => residues_polyAdd hq b c i
    _ = mulCoeff n (residues q a) (residues q b) k + mulCoeff n (residues q a) (residues q c) k :=
        mulCoeff_add_right hk ..
    _ ≡ residues q (polyMul n q a b) k + residues q (polyMul n q a c) k [ZMOD q.toNat] :=
        ((residues_polyMul hq n a b k).add (residues_polyMul hq n a c k)).symm

theorem polyMul_monomial (hq : 1 < q.toNat) (a : Nat → Word) {j : Nat} (hj : j < n) :
    polyMul n q a (monomial j) k = modQ q (∑ i ∈ Finset.range n, residues q a i * foldSign n k (i + j)) := by
  rw [polyMul_eq, residues_monomial hq, mulCoeff_power hk _ hj]

theorem polyMul_one (hq : 1 < q.toNat) {a : Nat → Word} (ha : (a k).toNat < q.toNat) :
    polyMul n q a (monomial 0) k = a k := by
  have hn : 0 < n := by omega
  simp only [polyMul_monomial hk hq a hn, Nat.add_zero, sum_mul_foldSign hk, modQ_residues ha]

theorem monomial_mul_monomial (hq : 1 < q.toNat) {i j : Nat} (hi : i < n) (hj : j < n) :
    polyMul n q (monomial i) (monomial j) k =
      if i + j < n then monomial (i + j) k else modQ q (-((monomial (i + j - n) k).toNat : Int)) := by
  have hpower : polyMul n q (monomial i) (monomial j) k = modQ q (foldSign n k (i + j)) := by
    rw [polyMul_monomial hk hq _ hj, residues_monomial hq]
    simp [hi]
  rw [hpower]
  split
  case isTrue hlt => rw [foldSign_eq_monomial hlt, modQ_of_lt (monomial_lt hq _ k)]
  case isFalse hge =>
    obtain ⟨d, hd⟩ := Nat.exists_eq_add_of_le' (Nat.le_of_not_lt hge)
    rw [hd, Nat.add_sub_cancel, foldSign_add_self (by omega), foldSign_eq_monomial (by omega)]

end

/-- Settles O56, one law of the ring each. -/
theorem multiplicationIsTheQuotientRings : Obligations.MultiplicationIsTheQuotientRings := by
  intro n q a b c hq _ ha _ _ k hk
  have hpos : 0 < q.toNat := by omega
  have hone : 1 < q.toNat := by omega
  exact ⟨polyMul_comm hk a b, polyMul_assoc hk hpos a b c, polyMul_polyAdd hk hpos a b c, polyMul_one hk hone (ha k hk),
    fun i hi j hj => monomial_mul_monomial hk hone hi hj⟩

/-! ### The full product -/

/-- The product of two polynomials with n coefficients has degree at most 2n − 2. -/
theorem fullProduct_eq_zero (n : Nat) (q : Word) (a b : Nat → Word) {m : Nat} (hm : 2 * n - 1 ≤ m) :
    fullProduct n q a b m = 0 := by
  refine Finset.sum_eq_zero fun i hi => Finset.sum_eq_zero fun j hj => if_neg ?_
  rw [Finset.mem_range] at hi hj
  omega

/-- R144's double sum, split by the sign of its terms, is the full product folded once (R145). -/
theorem mulCoeff_eq_fullProduct_sub {n k : Nat} (hk : k < n) (q : Word) (a b : Nat → Word) :
    mulCoeff n (residues q a) (residues q b) k = fullProduct n q a b k - fullProduct n q a b (k + n) := by
  rw [mulCoeff_eq_sum n k hk, fullProduct, fullProduct, ← Finset.sum_sub_distrib]
  refine Finset.sum_congr rfl fun i _ => ?_
  rw [← Finset.sum_sub_distrib]
  refine Finset.sum_congr rfl fun j _ => ?_
  by_cases hlow : i + j = k
  · have hhigh : i + j ≠ k + n := by omega
    rw [if_pos hlow, if_pos hlow, if_neg hhigh, sub_zero]
    rfl
  · rw [if_neg hlow, if_neg hlow, zero_sub, neg_ite, neg_zero]
    rfl

/-- Settles O57: `mulCoeff_eq_fullProduct_sub`, and reducing before the subtraction changes no residue. -/
theorem productIsTheFoldedFullProduct : Obligations.ProductIsTheFoldedFullProduct := by
  intro n q a b _ _
  refine ⟨fullProduct_eq_zero n q a b le_rfl, fun k hk => ?_⟩
  rw [polyMul_eq, mulCoeff_eq_fullProduct_sub hk]
  exact ⟨modQ_congr (Int.sub_emod ..), rfl⟩

end Sys2Proof.Machine

/-! The commands without entropy (R140–R163): how an idle block takes them, and the words a running one commits. -/

namespace Sys2Proof.Machine

/-! ### Rejection and acceptance -/

theorem reservedOutside (op : Opcode) : ReservedOutside op :=
  fun _ hopc hmask =>
    have hdec := decode_of_not_masked hopc hmask
    ⟨hdec, fun _ hidle => writeCmd_of_error hidle hdec⟩

/-- A command is accepted under the condition that its configuration check stands for. -/
theorem acceptedWhen_of_cfgOk {i : Instr} {ok : State → Prop} (hok : ∀ s, cfgOk i s = true ↔ ok s) :
    AcceptedWhen i ok := by
  intro s hidle
  rw [exec_idle hidle, ← hok s]
  refine ⟨fun hcfg => ?_, fun hcfg hbank => ?_, fun hcfg hbanks => ?_⟩
  · rw [submit_of_cfg_bad hcfg]
  · rw [hcfg, submit_of_bank_bad hbank]
  · rw [hcfg, submit_of_fits hbanks]
    rfl

/-- The ring check is the whole configuration check of these commands (R53). -/
theorem cfgValid_iff (s : State) : s.cfgValid = true ↔ RingValid s.build s.cfgN s.cfgQ := ringValid_iff ..

/-! ### The running command -/

section
variable {s : State} {j : Instr} {snap : Snapshot} {prog : Progress} (hrun : s.seq = .run j snap prog)
include hrun

theorem command_run (i : Instr) (ok : Bool) (body : Snapshot → Progress → Host.Outcome State Fault Refusal) :
    s.command i ok body = body snap prog := by
  rw [State.command, hrun]

theorem exec_run_add (rd ra rb : BankIx) :
    exec (.add rd ra rb) s = s.binary rd ra rb snap (List.zipWith (addLane snap.q)) := command_run hrun ..

theorem exec_run_neg (rd ra : BankIx) : exec (.neg rd ra) s = s.unary rd ra snap (List.map (negLane snap.q)) :=
  command_run hrun ..

theorem exec_run_mul (rd ra rb : BankIx) :
    exec (.mul rd ra rb) s = s.binary rd ra rb snap (mulWords snap.n.toNat snap.q) := command_run hrun ..

theorem exec_run_redq (rd ra : BankIx) : exec (.redq rd ra) s = s.unary rd ra snap (List.map (redqLane snap.q)) :=
  command_run hrun ..

theorem exec_run_redqs (rd ra : BankIx) : exec (.redqs rd ra) s = s.unary rd ra snap (List.map (redqsLane snap.q)) :=
  command_run hrun ..

theorem exec_run_ridl (rd ra rb : BankIx) :
    exec (.ridl rd ra rb) s = s.binary rd ra rb snap (List.zipWith (ridlLane snap.q)) := command_run hrun ..

theorem exec_run_mov (rd ra : BankIx) : exec (.mov rd ra) s = s.unary rd ra snap id := command_run hrun ..

theorem exec_run_clr (rd : BankIx) : exec (.clr rd) s = .next (s.commit rd (List.replicate snap.n.toNat 0)) :=
  command_run hrun ..

end

/-! ### What a command on written sources commits -/

section
variable {s : State} {rd ra rb : BankIx} {snap : Snapshot} {a b f : Nat → Word} (ha : s.holds ra snap.n.toNat a)
include ha

theorem commitsTo_unary_map {lane : Word → Word} (hf : ∀ k, lane (a k) = f k) :
    s.CommitsTo rd snap.n.toNat f (s.unary rd ra snap (List.map lane)) := by
  rw [unary_of_holds ha]
  exact commitsTo_commit s rd _ _ f (by simp) (by simp [hf])

variable (hb : s.holds rb snap.n.toNat b)
include hb

theorem commitsTo_binary_zipWith {lane : Word → Word → Word} (hf : ∀ k, lane (a k) (b k) = f k) :
    s.CommitsTo rd snap.n.toNat f (s.binary rd ra rb snap (List.zipWith lane)) := by
  rw [binary_of_holds ha hb]
  exact commitsTo_commit s rd _ _ f (by simp) (by simp [hf])

theorem commitsTo_binary_mulWords (hf : ∀ k < snap.n.toNat, polyMul snap.n.toNat snap.q a b k = f k) :
    s.CommitsTo rd snap.n.toNat f (s.binary rd ra rb snap (mulWords snap.n.toNat snap.q)) := by
  have hcoeff (c : Nat → Word) (i : Nat) (hi : i < snap.n.toNat) :
      coeff snap.q ((List.range snap.n.toNat).map c) i ≡ residues snap.q c i [ZMOD snap.q.toNat] := by
    simp [coeff, residues, hi]
  rw [binary_of_holds ha hb]
  refine commitsTo_commit s rd _ _ f (by simp [mulWords]) fun k hk => ?_
  have hk : k < snap.n.toNat := by simpa [mulWords] using hk
  simp only [← hf k hk, mulWords, List.getElem_map, List.getElem_range, polyMul_eq]
  exact modQ_congr (mulCoeff_modEq hk (hcoeff a) (hcoeff b))

end

theorem unary_of_unwritten {s : State} {ra : BankIx} {snap : Snapshot} (h : ∃ k < snap.n.toNat, s.bankWord? ra k = none)
    (rd : BankIx) (f : List Word → List Word) : s.unary rd ra snap f = .fault .unwrittenRam := by
  rw [State.unary, (bank?_eq_none_iff s ra _).2 h]

/-! ### The lanes and the product as the rules word them -/

/-- The residue of a natural number, also where Q = 0. -/
theorem modQ_natCast (q : Word) (x : Nat) : modQ q x = BitVec.ofNat 32 (x % q.toNat) := by
  rw [modQ, ← Int.natCast_emod, Int.toNat_natCast]

theorem addLane_eq (q a b : Word) :
    addLane q a b = BitVec.ofNat 32 ((a.toNat % q.toNat + b.toNat % q.toNat) % q.toNat) := modQ_natCast q (res q a + res q b)

theorem redqLane_eq (q a : Word) : redqLane q a = BitVec.ofNat 32 (a.toNat % q.toNat) := modQ_natCast q a.toNat

theorem redqsLane_eq (q a : Word) :
    redqsLane q a = modQ q (if a.toNat < 2 ^ 31 then (a.toNat : Int) else a.toNat - 2 ^ 32) := by
  rw [redqsLane, BitVec.toInt_eq_toNat_cond]
  congr 1
  split <;> split <;> omega

/-- R144's double loop, over the residues and reduced once. -/
theorem polyMul_eq_modQ_sum {n k : Nat} (hk : k < n) (q : Word) (a b : Nat → Word) :
    polyMul n q a b k = modQ q (∑ i ∈ Finset.range n, ∑ j ∈ Finset.range n,
      if i + j = k then (res q (a i) : Int) * res q (b j)
      else if i + j = k + n then -(res q (a i) * res q (b j) : Int)
      else 0) := congrArg (modQ q) (mulCoeff_eq_sum n k hk ..)

section
variable {q : Word} (hq : 0 < q.toNat)
include hq

/-- A difference of residues, made a sum of naturals by adding Q. -/
theorem ridlLane_eq (a b : Word) :
    ridlLane q a b = BitVec.ofNat 32 ((a.toNat % q.toNat + (q.toNat - b.toNat % q.toNat)) % q.toNat) := by
  have hb : b.toNat % q.toNat < q.toNat := Nat.mod_lt _ hq
  have hsum : ((a.toNat % q.toNat + (q.toNat - b.toNat % q.toNat) : Nat) : Int) = res q a - res q b + q.toNat := by
    simp only [res]
    omega
  rw [← modQ_natCast, hsum]
  exact modQ_congr (Int.add_emod_right ..).symm

theorem negLane_eq (a : Word) :
    negLane q a = BitVec.ofNat 32 (if a.toNat % q.toNat = 0 then 0 else q.toNat - a.toNat % q.toNat) := by
  have hlt : a.toNat % q.toNat < q.toNat := Nat.mod_lt _ hq
  have hridl : negLane q a = ridlLane q 0 a := by simp [negLane, ridlLane, res]
  rw [hridl, ridlLane_eq hq]
  congr 1
  split
  case isTrue hzero => simp [hzero]
  case isFalse hne => simpa using Nat.mod_eq_of_lt (by omega)

end

/-! ### The statements -/

/-- Settles O9: acceptance by `exec_idle`, the rejections by `writeCmd_of_error` and `writeCmd_of_busy`, completion by
`exec_run_nop`. -/
theorem nopOnlyCompletes : Obligations.NopOnlyCompletes := by
  refine ⟨fun s hidle => ?_, fun s w hidle hopc hw => ?_, fun s => writeCmd_of_busy, fun s snap prog => exec_run_nop⟩
  · exact exec_idle hidle .nop
  · refine (reservedOutside .nop w hopc ?_).2 s hidle
    rwa [show Opcode.nop.mask = BitVec.allOnes 32 from rfl, BitVec.and_allOnes]

/-- Settles O10: the lane is `addLane_eq`. -/
theorem addCommitsTheSums : Obligations.AddCommitsTheSums := by
  refine ⟨reservedOutside .add, fun rd ra rb => ⟨acceptedWhen_of_cfgOk cfgValid_iff,
    fun s snap prog a b hrun ha hb => ?_⟩⟩
  rw [exec_run_add hrun]
  exact commitsTo_binary_zipWith ha hb fun k => addLane_eq snap.q (a k) (b k)

/-- Settles O11: the lane is `negLane_eq`. -/
theorem negCommitsTheInverses : Obligations.NegCommitsTheInverses := by
  refine ⟨reservedOutside .neg, fun rd ra => ⟨acceptedWhen_of_cfgOk cfgValid_iff,
    fun s snap prog a hrun hq ha => ?_⟩⟩
  rw [exec_run_neg hrun]
  exact commitsTo_unary_map ha fun k => negLane_eq hq (a k)

/-- Settles O12: the coefficient is `polyMul_eq_modQ_sum`. -/
theorem mulCommitsTheNegacyclicProduct : Obligations.MulCommitsTheNegacyclicProduct := by
  refine ⟨reservedOutside .mul, fun rd ra rb => ⟨acceptedWhen_of_cfgOk cfgValid_iff,
    fun s snap prog a b hrun ha hb => ?_⟩⟩
  rw [exec_run_mul hrun]
  exact commitsTo_binary_mulWords ha hb fun k hk => polyMul_eq_modQ_sum hk snap.q a b

/-- Settles O13: the lane is `redqLane_eq`. -/
theorem redqCommitsTheUnsignedResidues : Obligations.RedqCommitsTheUnsignedResidues := by
  refine ⟨reservedOutside .redq, fun rd ra => ⟨acceptedWhen_of_cfgOk cfgValid_iff,
    fun s snap prog a hrun ha => ?_⟩⟩
  rw [exec_run_redq hrun]
  exact commitsTo_unary_map ha fun k => redqLane_eq snap.q (a k)

/-- Settles O14: the lane is `redqsLane_eq`. -/
theorem redqsCommitsTheSignedResidues : Obligations.RedqsCommitsTheSignedResidues := by
  refine ⟨reservedOutside .redqs, fun rd ra => ⟨acceptedWhen_of_cfgOk cfgValid_iff,
    fun s snap prog a hrun ha => ?_⟩⟩
  rw [exec_run_redqs hrun]
  exact commitsTo_unary_map ha fun k => redqsLane_eq snap.q (a k)

/-- Settles O15: the lane is `ridlLane_eq`. -/
theorem ridlCommitsTheFoldedDifference : Obligations.RidlCommitsTheFoldedDifference := by
  refine ⟨reservedOutside .ridl, fun rd ra rb => ⟨acceptedWhen_of_cfgOk cfgValid_iff,
    fun s snap prog a b hrun hq ha hb => ?_⟩⟩
  rw [exec_run_ridl hrun]
  exact commitsTo_binary_zipWith ha hb fun k => ridlLane_eq hq (a k) (b k)

/-- Settles O16: the words pass unchanged, and `unary_of_unwritten` is the fault. -/
theorem movCommitsTheRawWords : Obligations.MovCommitsTheRawWords := by
  refine ⟨reservedOutside .mov, fun rd ra => ⟨acceptedWhen_of_cfgOk cfgValid_iff,
    fun s snap prog a hrun => ?_⟩⟩
  rw [exec_run_mov hrun, ← List.map_id_fun]
  exact ⟨fun ha => commitsTo_unary_map ha fun _ => rfl, fun h => unary_of_unwritten h rd _⟩

/-- Settles O17: CLR reads no bank, so its commit has no condition. -/
theorem clrCommitsZeros : Obligations.ClrCommitsZeros := by
  refine ⟨reservedOutside .clr, fun rd => ⟨acceptedWhen_of_cfgOk cfgValid_iff,
    fun s snap prog hrun => ?_⟩⟩
  rw [exec_run_clr hrun]
  exact commitsTo_commit s rd _ _ _ (by simp) (by simp)

end Sys2Proof.Machine

/-! Rounding half to even (R184): the quotient and the remainder that rhe computes are the ones given. -/

namespace Sys2Proof.Machine

theorem rhe_mul_add {d q rho : Int} (hnonneg : 0 ≤ rho) (hlt : rho < d) :
    rhe (q * d + rho) d =
      if 2 * rho > d then q + 1 else if 2 * rho < d then q else if q % 2 = 0 then q else q + 1 := by
  have hquot : (q * d + rho) / d = q := by
    rw [Int.mul_add_ediv_right _ _ (by omega), Int.ediv_eq_zero_of_lt hnonneg hlt, add_zero]
  have hrem : q * d + rho - q * d = rho := add_sub_cancel_left ..
  simp only [rhe, hquot, hrem]

/-- A tie needs an even divisor, and 2^(2F) is odd for F = 0. -/
theorem one_le_frac_of_tie {rho : Int} {F : Nat} (htie : 2 * rho = 2 ^ (2 * F)) : 1 ≤ F := by
  cases F with
  | zero =>
    rw [mul_zero, pow_zero] at htie
    omega
  | succ F => exact Nat.le_add_left ..

/-- Settles O53: the branches of `rhe_mul_add`, and `one_le_frac_of_tie`. -/
theorem roundingIsHalfToEven : Obligations.RoundingIsHalfToEven := by
  rintro _ d q rho - rfl hnonneg hlt
  rw [rhe_mul_add hnonneg hlt]
  refine ⟨fun habove => if_pos habove, fun hbelow => ?_, fun htie => ?_, fun F hd htie => ?_⟩
  · rw [if_neg hbelow.not_gt, if_pos hbelow]
  · rw [if_neg htie.not_gt, if_neg htie.not_lt]
    exact ⟨fun heven => if_pos heven, fun hodd => if_neg hodd⟩
  · exact one_le_frac_of_tie (htie.trans hd)

end Sys2Proof.Machine

/-! The samplers (R183–R193): how an idle block takes them, the progress each Draw makes, and what the commit after the last
one writes. -/

namespace Sys2Proof.Machine

/-! ### Acceptance -/

theorem cfgOk_gsmp_iff (rd : BankIx) (s : State) :
    cfgOk (.gsmp rd) s = true ↔ RingValid s.build s.cfgN s.cfgQ ∧ s.gsigma ≠ 0 := by
  rw [cfgOk, Bool.and_eq_true, cfgValid_iff, bne_iff_ne]

theorem cfgOk_gcdt_iff (rd : BankIx) (s : State) :
    cfgOk (.gcdt rd) s = true ↔ RingValid s.build s.cfgN s.cfgQ ∧ s.cdtLen.toNat ≤ 64 := by
  rw [cfgOk, Bool.and_eq_true, cfgValid_iff, decide_eq_true_eq, cdtMax]

/-! ### The commit -/

theorem commitsTo_samplerStep {s : State} {i : Instr} {rd : BankIx} {snap : Snapshot} {prog : Progress}
    {draw : Word → Option Progress} (h : prog.scratch.length = snap.n.toNat) :
    s.CommitsTo rd snap.n.toNat (fun k => prog.scratch.getD k 0) (s.samplerStep i rd snap prog draw) := by
  rw [samplerStep_commit h]
  exact commitsTo_commit s rd _ _ _ h fun k hk => (List.getD_eq_getElem _ _ hk).symm

/-! ### The Draw of GCDT -/

section
variable {s : State} {snap : Snapshot} {prog : Progress}

theorem gcdtDraw_of_written {t : Nat → Word} (h : ∀ j < snap.cdtLen.toNat, s.ram.word? (0x100 + 4 * j) = some (t j))
    (u : Word) :
    s.gcdtDraw snap prog u = some { prog with scratch := prog.scratch ++ [modQ snap.q (snap.cdtOffset.toInt +
      (((Finset.range snap.cdtLen.toNat).filter fun j => (t j).toNat ≤ u.toNat).card : Int))] } := by
  rw [State.gcdtDraw, cdt?_eq_some h, ← countP_range]
  simp only [gcdtValue, List.countP_map, Function.comp_def]

theorem gcdtDraw_of_unwritten (h : ∃ j < snap.cdtLen.toNat, s.ram.word? (0x100 + 4 * j) = none) (u : Word) :
    s.gcdtDraw snap prog u = none := by
  rw [State.gcdtDraw, cdt?_eq_none_iff.mpr h]

end

/-! ### The Draw of UNIF -/

/-- An attempt on at least 3 bits, and on one bit more than a word at most: 4 ≤ 2Q − 2 < 2^33. -/
theorem unif_attempt_bits_bounds {q : Word} {k : Nat} (hq : 3 ≤ q.toNat) (hlow : 2 ^ (k - 1) ≤ 2 * q.toNat - 2)
    (hhigh : 2 * q.toNat - 2 < 2 ^ k) : 3 ≤ k ∧ k ≤ 33 := by
  have hqlt : q.toNat < 2 ^ 32 := q.isLt
  have hmin : 2 < k := (Nat.pow_lt_pow_iff_right one_lt_two).mp (by omega : 2 ^ 2 < 2 ^ k)
  have hmax : k - 1 < 33 := (Nat.pow_lt_pow_iff_right one_lt_two).mp (by omega : 2 ^ (k - 1) < 2 ^ 33)
  omega

section
variable {snap : Snapshot} {prog : Progress}

theorem unifDraw_oneWord (hbits : unifBits snap.q ≤ 32) (w : Word) :
    unifDraw snap prog w =
      { unifAttempt snap.q prog.scratch (w.toNat % 2 ^ unifBits snap.q) with pending := prog.pending } := if_pos hbits

theorem unifDraw_lowWord (hbits : 32 < unifBits snap.q) (hpending : prog.pending = none) (w : Word) :
    unifDraw snap prog w = { prog with pending := some w } := by
  rw [unifDraw, if_neg hbits.not_ge, hpending]

theorem unifDraw_highWord {low : Word} (hbits : 32 < unifBits snap.q) (hpending : prog.pending = some low) (w : Word) :
    unifDraw snap prog w = unifAttempt snap.q prog.scratch (w.toNat % 2 * 2 ^ 32 + low.toNat) := by
  have hbit : (w.getLsbD 0).toNat = w.toNat % 2 := by
    rw [BitVec.getLsbD, Nat.toNat_testBit, pow_zero, Nat.div_one]
  rw [unifDraw, if_neg hbits.not_ge, hpending, hbit]

end

/-! ### The statements -/

/-- Settles O18: the Draw is `samplerStep_draw` with the model's `gsmpDraw`, the commit `commitsTo_samplerStep`. -/
theorem gsmpDrawsRoundedSamples : Obligations.GsmpDrawsRoundedSamples := by
  refine ⟨reservedOutside .gsmp, fun rd => ⟨acceptedWhen_of_cfgOk (cfgOk_gsmp_iff rd), fun s snap prog hrun => ?_⟩⟩
  rw [exec_run_gsmp hrun]
  exact ⟨fun z hmore hoffer => samplerStep_draw hmore hoffer rfl, samplerStep_wait, commitsTo_samplerStep⟩

/-- Settles O19: the Draw and its fault are `gcdtDraw_of_written` and `gcdtDraw_of_unwritten`, the commit
`commitsTo_samplerStep`. -/
theorem gcdtDrawsTableLookups : Obligations.GcdtDrawsTableLookups := by
  refine ⟨reservedOutside .gcdt, fun rd => ⟨acceptedWhen_of_cfgOk (cfgOk_gcdt_iff rd), fun s snap prog hrun => ?_⟩⟩
  rw [exec_run_gcdt hrun]
  refine ⟨fun u t hmore hoffer hwritten => ?_, fun u hmore hoffer hunwritten => ?_, samplerStep_wait,
    commitsTo_samplerStep⟩
  · exact samplerStep_draw hmore hoffer (gcdtDraw_of_written hwritten u)
  · exact samplerStep_fault hmore hoffer (gcdtDraw_of_unwritten hunwritten u)

/-- Settles O20: k is `unifBits` (`unifBits_eq`), the three kinds of Draw are `unifDraw_oneWord`, `unifDraw_lowWord` and
`unifDraw_highWord`, the commit is `commitsTo_samplerStep`. -/
theorem unifDrawsByRejection : Obligations.UnifDrawsByRejection := by
  refine ⟨reservedOutside .unif, fun rd => ⟨acceptedWhen_of_cfgOk cfgValid_iff,
    fun s snap prog k hrun hq hlow hhigh => ?_⟩⟩
  rw [exec_run_unif hrun]
  refine ⟨unif_attempt_bits_bounds hq hlow hhigh, fun w hmore hoffer => ?_, samplerStep_wait, commitsTo_samplerStep⟩
  obtain rfl : unifBits snap.q = k := unifBits_eq hq hlow hhigh
  rw [samplerStep_draw hmore hoffer rfl]
  rcases le_or_gt (unifBits snap.q) 32 with hshort | hlong
  · rw [if_neg fun h => hshort.not_gt h.1, unifDraw_oneWord hshort]
    simp only [unifAttempt, if_pos hshort]
  · cases hpending : prog.pending with
    | none => rw [if_pos ⟨hlong, rfl⟩, unifDraw_lowWord hlong hpending]
    | some low =>
      rw [if_neg (by simp), unifDraw_highWord hlong hpending]
      simp only [unifAttempt, if_neg hlong.not_ge, Option.getD_some]

end Sys2Proof.Machine

/-! RECON (R210–R216): its lane as R210 words it, and its comparisons with eighths of Q as rational and as integer limits
(R211, R212). -/

namespace Sys2Proof.Machine

/-! ### The bit of one lane -/

/-- R210's bit, by the comparisons on eight times the residues. -/
theorem reconLane_eq (q v r : Word) :
    reconLane q v r =
      if (0 ≤ 8 * res q r ∧ 8 * res q r ≤ 2 * q.toNat) ∨ (4 * q.toNat ≤ 8 * res q r ∧ 8 * res q r ≤ 6 * q.toNat) then
        if q.toNat ≤ 8 * res q v ∧ 8 * res q v ≤ 5 * q.toNat then 1 else 0
      else
        if 3 * q.toNat ≤ 8 * res q v ∧ 8 * res q v ≤ 7 * q.toNat then 1 else 0 := by
  simp only [reconLane, selectLow_iff, inEighths_iff, zero_mul, one_mul]

theorem exec_run_recon {s : State} {j : Instr} {snap : Snapshot} {prog : Progress} (hrun : s.seq = .run j snap prog)
    (rd ra rb : BankIx) : exec (.recon rd ra rb) s = s.binary rd ra rb snap (List.zipWith (reconLane snap.q)) :=
  command_run hrun ..

/-- Settles O21: the lane is `reconLane_eq`. -/
theorem reconCommitsTheThresholdBits : Obligations.ReconCommitsTheThresholdBits := by
  refine ⟨reservedOutside .recon, fun rd ra rb => ⟨acceptedWhen_of_cfgOk cfgValid_iff,
    fun s snap prog a b hrun ha hb => ?_⟩⟩
  rw [exec_run_recon hrun]
  exact commitsTo_binary_zipWith ha hb fun k => reconLane_eq snap.q (a k) (b k)

/-! ### Eighths of Q -/

/-- The model's comparison, multiplied out by 8, is the comparison of rationals (R211). -/
theorem inEighths_iff_rat (q : Word) (a b x : Nat) :
    inEighths q a b x = true ↔ (a : ℚ) / 8 * q.toNat ≤ x ∧ (x : ℚ) ≤ (b : ℚ) / 8 * q.toNat := by
  have h8 : (0 : ℚ) < 8 := by norm_num
  rw [inEighths_iff, div_mul_eq_mul_div, div_mul_eq_mul_div, div_le_iff₀' h8, le_div_iff₀' h8]
  norm_cast

/-- An odd Q leaves all three factors 2 of 8 to m. -/
theorem eight_mul_ne_mul_of_odd {q m : Nat} (hq : q % 2 = 1) (hlow : 1 ≤ m) (hhigh : m ≤ 7) (x : Nat) :
    8 * x ≠ m * q := by
  intro h
  have hcoprime : Nat.Coprime (2 ^ 3) q := Nat.Coprime.pow_left 3 (Nat.coprime_two_left.2 (Nat.odd_iff.2 hq))
  have hdvd : 8 ∣ m := hcoprime.dvd_of_dvd_mul_right ⟨x, h.symm⟩
  exact absurd (Nat.le_of_dvd hlow hdvd) (by omega)

/-- The integers between eighths of Q run from a ceiling to a floor, whether or not Q is odd. -/
theorem inEighths_iff_limits (q : Word) (a b x : Nat) :
    inEighths q a b x = true ↔ (a * q.toNat + 7) / 8 ≤ x ∧ x ≤ b * q.toNat / 8 := by
  have hceil : a * q.toNat ≤ 8 * x ↔ (a * q.toNat + 7) / 8 ≤ x := by omega
  have hfloor : 8 * x ≤ b * q.toNat ↔ x ≤ b * q.toNat / 8 := by omega
  rw [inEighths_iff, hceil, hfloor]

theorem selectLow_iff_limits (q : Word) (x : Nat) :
    selectLow q x = true ↔ x ≤ 2 * q.toNat / 8 ∨ ((4 * q.toNat + 7) / 8 ≤ x ∧ x ≤ 6 * q.toNat / 8) := by
  simp [selectLow, inEighths_iff_limits]

/-- Settles O58: the rational comparison is `inEighths_iff_rat`, the missing boundaries `eight_mul_ne_mul_of_odd`, and the
limits are `selectLow_iff_limits` and `inEighths_iff_limits`, evaluated for each of the two given Q. -/
theorem reconciliationLimits : Obligations.ReconciliationLimits := by
  refine ⟨inEighths_iff_rat, fun q x m hq hlow hhigh => eight_mul_ne_mul_of_odd hq hlow hhigh x,
    fun q x _ => ⟨selectLow_iff_limits q x, ?_, inEighths_iff_limits q 3 7 x⟩,
    fun x => ⟨selectLow_iff_limits 0xFFFFFFFF x, inEighths_iff_limits 0xFFFFFFFF 1 5 x,
      inEighths_iff_limits 0xFFFFFFFF 3 7 x⟩,
    fun x => ⟨selectLow_iff_limits 17 x, inEighths_iff_limits 17 1 5 x, inEighths_iff_limits 17 3 7 x⟩⟩
  simpa only [one_mul] using inEighths_iff_limits q 1 5 x

end Sys2Proof.Machine

/-! Errors (R230–R237, R241, R243, R245): how one is recorded and acknowledged, which accesses raise one, and which moves change
DONE and ERR. -/

namespace Sys2Proof.Machine

/-! ### Raising and acknowledging -/

section
variable {s : State}

theorem raiseError_of_first (h : s.err = false) (c : ErrCode) (info : Word) :
    s.raiseError c info = { s with errCode := c.code, errInfo := info, err := true } := by
  simp [State.raiseError, h]

theorem raiseError_of_later (h : s.err = true) (c : ErrCode) (info : Word) : s.raiseError c info = s := by
  cases s
  simp_all [State.raiseError]

theorem errCode_of_first (h : s.err = false) (c : ErrCode) (info : Word) : (s.raiseError c info).errCode = c.code := by
  rw [raiseError_of_first h]

theorem and_not_eq_ite (b c : Bool) : (b && !c) = if c then false else b := by
  cases c <;> simp

theorem acknowledge_of_set {v : Word} (h : v.getLsbD 2 = true) :
    s.acknowledge v =
      { s with err := false, errCode := 0, errInfo := 0, done := if v.getLsbD 1 then false else s.done } := by
  simp only [State.acknowledge, and_not_eq_ite, h, if_true]

theorem acknowledge_of_clear {v : Word} (h : v.getLsbD 2 = false) :
    s.acknowledge v = { s with done := if v.getLsbD 1 then false else s.done } := by
  simp only [State.acknowledge, and_not_eq_ite, h, Bool.false_eq_true, if_false]

end

theorem code_ne_six_of_ne_hostAcc {c : ErrCode} (h : c ≠ .hostAcc) : c.code ≠ 6 := by
  cases c with
  | hostAcc => exact absurd rfl h
  | _ => decide

/-- Settles O27: the two cases are `raiseError_of_first` and `raiseError_of_later`; the numbers are those of `ErrCode.code`. -/
theorem firstErrorIsRecorded : Obligations.FirstErrorIsRecorded := by
  refine ⟨fun s c info => ⟨fun h => raiseError_of_first h c info, fun h => raiseError_of_later h c info⟩, ?_⟩
  intro s info h
  simp only [errCode_of_first h, ErrCode.code, and_self]

/-- Settles O30: the two products of the line are conjunctions and their sum is a disjunction. -/
theorem irqIsALevelOfFourBits : Obligations.IrqIsALevelOfFourBits := by
  intro s
  simp only [State.irq, Bool.or_eq_true, Bool.and_eq_true]

/-! ### Register accesses as steps -/

section
variable {s : State} {off : Nat} {v : Word} {rest : List Input}

/-- The step in which the host writes a register is that register's write on the state without the move. -/
theorem step_writeReg (h : s.inputs = .write (s.build.base + off) 4 v :: rest) (hreg : off < 0x40) (h4 : off % 4 = 0) :
    step s = ({ s with inputs := rest } : State).writeReg off v := by
  have hwindow : off < windowSize := hreg.trans (by decide)
  rw [step_write h hwindow h4, memWrite_register _ _ hreg]

/-- The step in which the host reads a register only returns it. -/
theorem step_readReg (h : s.inputs = .read (s.build.base + off) 4 :: rest) (hreg : off < 0x40) (h4 : off % 4 = 0) :
    step s = .next (({ s with inputs := rest } : State).returns (({ s with inputs := rest } : State).readReg off)) := by
  have hwindow : off < windowSize := hreg.trans (by decide)
  rw [step_read h hwindow h4, memRead_register _ hreg]

end

/-- Settles O29: the write is `State.acknowledge`, by `acknowledge_of_set` or `acknowledge_of_clear`. -/
theorem acknowledgeClearsTheRecordedError : Obligations.AcknowledgeClearsTheRecordedError := by
  intro s v rest hnext
  refine ⟨({ s with inputs := rest } : State).acknowledge v, step_writeReg hnext (by decide) (by decide),
    acknowledge_of_set, acknowledge_of_clear, fun hbit c info => ?_⟩
  have hclear : (({ s with inputs := rest } : State).acknowledge v).err = false := by simp [hbit]
  rw [raiseError_of_first hclear]
  exact ⟨rfl, rfl⟩

/-! ### Pushes -/

section
variable {s : State} (w : Word)

theorem push_of_room (h : s.fifo.length < s.build.entDepth) : s.push w = { s with fifo := s.fifo ++ [w] } :=
  if_pos h

theorem push_of_full (h : s.build.entDepth ≤ s.fifo.length) : s.push w = s.raiseError .entOvf w :=
  if_neg (Nat.not_lt.2 h)

end

/-- Settles O32: the write is `State.push`, which asks for room alone and not whether a command runs. -/
theorem pushFillsTheFifoOrOverflows : Obligations.PushFillsTheFifoOrOverflows := by
  intro s w rest
  refine ⟨fun hnext => ?_, fun hnext => step_readReg hnext (by decide) (by decide)⟩
  have hpush : step s = .next (({ s with inputs := rest } : State).push w) :=
    step_writeReg hnext (by decide) (by decide)
  rw [hpush]
  exact ⟨fun hroom => congrArg _ (push_of_room w hroom), fun hfull => congrArg _ (push_of_full w hfull)⟩

/-! ### RAM accesses while BUSY -/

section
variable {s : State} {off : Nat} (hbusy : s.seq ≠ .idle) (hram : RamOffset s.build off)
include hbusy hram

theorem memRead_of_busy : s.memRead off = .next ((s.raiseError .hostAcc (BitVec.ofNat 32 off)).returns 0) := by
  obtain ⟨hlow, h4⟩ := ramOffset_bounds hram
  simp [State.memRead, Nat.not_lt.2 hlow, (isRam_iff h4).2 hram, (busy_iff s).2 hbusy]

theorem memWrite_of_busy (v : Word) : s.memWrite off v = .next (s.raiseError .hostAcc (BitVec.ofNat 32 off)) := by
  obtain ⟨hlow, h4⟩ := ramOffset_bounds hram
  simp [State.memWrite, Nat.not_lt.2 hlow, (isRam_iff h4).2 hram, (busy_iff s).2 hbusy]

end

section
variable {s t : State} {off : Nat} {v : Word} (hfree : ¬ (s.busy = true ∧ s.build.isRam off = true)) (hcode : s.errCode ≠ 6)
include hfree hcode

/-- A read that is not refused leaves ERRCODE as it is. -/
theorem hostRead_not_hostAcc (h : HostRead s off t) : t.errCode ≠ 6 := by
  cases h with
  | returned => exact hcode
  | refused busy ram => exact absurd ⟨busy, ram⟩ hfree

/-- A write records ERR_HOSTACC only where it is refused, since no other error has its number. -/
theorem hostWrite_not_hostAcc (h : HostWrite s off v t) : t.errCode ≠ 6 := by
  cases h with
  | error c info why =>
    have hother : c.code ≠ 6 := code_ne_six_of_ne_hostAcc fun hc => hfree (why hc)
    rw [State.raiseError_errCode]
    split
    · exact hcode
    · exact hother
  | softReset | clearErr => exact (by decide : (0 : BitVec 4) ≠ 6)
  | config t reg => cases reg <;> exact hcode
  | _ => exact hcode

end

/-- Settles O31: the refusals are `memRead_of_busy` and `memWrite_of_busy`; every other access is one of `HostRead` or
`HostWrite` that is not refused. -/
theorem ramIsRefusedWhileBusy : Obligations.RamIsRefusedWhileBusy := by
  refine ⟨fun s off v rest hbusy hwindow hram => ?_, fun s t off v h4 hfree _ hcode haccess => ?_⟩
  · have h4 : off % 4 = 0 := (ramOffset_bounds hram).2
    constructor <;> intro hnext
    · rw [step_read hnext hwindow h4]
      exact memRead_of_busy (s := { s with inputs := rest }) hbusy hram
    · rw [step_write hnext hwindow h4]
      exact memWrite_of_busy (s := { s with inputs := rest }) hbusy hram v
  · have hfree : ¬ (s.busy = true ∧ s.build.isRam off = true) := by
      rw [busy_iff, isRam_iff h4]
      tauto
    rcases haccess with hread | hwrite
    · exact hostRead_not_hostAcc hfree hcode (hostRead_of_memRead hread)
    · exact hostWrite_not_hostAcc hfree hcode (hostWrite_of_memWrite hwrite)

/-! ### What changes DONE and ERR -/

section
variable {s t : State} {off : Nat} {v : Word}

/-- The sequencer ends a running command and sets DONE, or leaves DONE as it is and ends none. -/
theorem seqStep_done (h : SeqStep s t) :
    (t.done = s.done ∧ (t.seq = .idle → s.seq = .idle)) ∨ (t.done = true ∧ s.seq ≠ .idle ∧ t.seq = .idle) := by
  cases h with
  | idle | wait => exact .inl ⟨rfl, id⟩
  | draw _ snap => exact .inl ⟨State.taken_done s snap.entSel, nofun⟩
  | complete _ _ run | commit _ _ _ _ _ _ run | samplerCommit _ _ _ _ run =>
    exact .inr ⟨rfl, by simp [run], rfl⟩

theorem seqStep_keeps_err (h : SeqStep s t) : t.err = s.err := by
  cases h with
  | draw _ snap => exact State.taken_err s snap.entSel
  | _ => rfl

theorem hostRead_keeps_done (h : HostRead s off t) : t.done = s.done := by
  cases h <;> rfl

theorem hostRead_err (h : HostRead s off t) : t.err = s.err ∨ t.err = true := by
  cases h with
  | returned => exact .inl rfl
  | refused => exact .inr rfl

/-- A host write clears DONE by SOFT_RESET or by bit 1 of STATUS, and never sets it. -/
theorem hostWrite_done (h : HostWrite s off v t) :
    t.done = s.done ∨
      (t.done = false ∧ ((off = 0x00C ∧ v.getLsbD 1 = true) ∨ (off = 0x008 ∧ v.getLsbD 3 = true))) := by
  cases h with
  | softReset hat bit => exact .inr ⟨rfl, .inr ⟨hat, bit⟩⟩
  | clearErr hat | clearDone hat =>
    cases hbit : v.getLsbD 1 with
    | true => exact .inr ⟨by simp, .inl ⟨hat, rfl⟩⟩
    | false => exact .inl (by simp)
  | config t reg => cases reg <;> exact .inl rfl
  | _ => exact .inl rfl

/-- A host write clears ERR by SOFT_RESET or by bit 2 of STATUS. -/
theorem hostWrite_err (h : HostWrite s off v t) :
    t.err = s.err ∨ t.err = true ∨
      (t.err = false ∧ ((off = 0x00C ∧ v.getLsbD 2 = true) ∨ (off = 0x008 ∧ v.getLsbD 3 = true))) := by
  cases h with
  | softReset hat bit => exact .inr (.inr ⟨rfl, .inr ⟨hat, bit⟩⟩)
  | clearErr hat bit => exact .inr (.inr ⟨rfl, .inl ⟨hat, bit⟩⟩)
  | error => exact .inr (.inl rfl)
  | config t reg => cases reg <;> exact .inl rfl
  | _ => exact .inl rfl

end

section
variable {s t : State}

/-- The host write at the head of the schedule, by what it clears. -/
theorem acknowledges_or_resetMoves {off bit : Nat} {v : Word} {rest : List Input}
    (hnext : s.inputs = .write (s.build.base + off) 4 v :: rest)
    (h : (off = 0x00C ∧ v.getLsbD bit = true) ∨ (off = 0x008 ∧ v.getLsbD 3 = true)) :
    s.acknowledges bit ∨ s.resetMoves := by
  rcases h with ⟨rfl, hbit⟩ | ⟨rfl, hbit⟩
  · exact .inl ⟨v, rest, hnext, hbit⟩
  · exact .inr ⟨rest, .inr ⟨v, hnext, hbit⟩⟩

/-- When the sequencer is the agent that moves, the step is its. -/
theorem seqStep_of_step (hmoves : s.sequencerMoves) (h : step s = .next t) : SeqStep s.pop t := by
  rcases step_cases h with ⟨-, hseq⟩ | ⟨_, _, hin, -⟩ | ⟨_, hin, -⟩ | ⟨_, _, hin, -⟩ | ⟨_, _, _, hin, -⟩
  · exact hseq
  all_goals
    rcases hmoves with hin' | ⟨_, hin'⟩ <;> rw [hin] at hin' <;> cases hin'

variable (h : step s = .next t)
include h

/-- What a step does to DONE, by whose move it is. -/
theorem step_done :
    t.done = s.done ∨ (t.done = true ∧ s.sequencerMoves ∧ s.seq ≠ .idle ∧ t.seq = .idle) ∨
      (t.done = false ∧ (s.acknowledges 1 ∨ s.resetMoves)) := by
  rcases step_cases h with ⟨hmoves, hseq⟩ | ⟨_, _, -, rfl⟩ | ⟨rest, hin, rfl⟩ | ⟨_, _, -, -, -, hread⟩ |
    ⟨off, v, rest, hin, -, -, hwrite⟩
  · rcases seqStep_done hseq with ⟨hkept, -⟩ | ⟨hset, hrun, hidle⟩
    · exact .inl hkept
    · exact .inr (.inl ⟨hset, hmoves, hrun, hidle⟩)
  · exact .inl rfl
  · exact .inr (.inr ⟨rfl, .inr ⟨rest, .inl hin⟩⟩)
  · exact .inl (hostRead_keeps_done (s := s.pop) (hostRead_of_memRead hread))
  · rcases hostWrite_done (hostWrite_of_memWrite hwrite) with hkept | ⟨hclear, hwhy⟩
    · exact .inl hkept
    · exact .inr (.inr ⟨hclear, acknowledges_or_resetMoves hin hwhy⟩)

/-- What a step does to ERR, by whose move it is. -/
theorem step_err :
    t.err = s.err ∨
      (t.err = true ∧ ∃ addr rest, s.inputs = .read addr 4 :: rest ∨ ∃ v, s.inputs = .write addr 4 v :: rest) ∨
      (t.err = false ∧ (s.acknowledges 2 ∨ s.resetMoves)) := by
  rcases step_cases h with ⟨-, hseq⟩ | ⟨_, _, -, rfl⟩ | ⟨rest, hin, rfl⟩ | ⟨off, rest, hin, -, -, hread⟩ |
    ⟨off, v, rest, hin, -, -, hwrite⟩
  · exact .inl (seqStep_keeps_err (s := s.pop) hseq)
  · exact .inl rfl
  · exact .inr (.inr ⟨rfl, .inr ⟨rest, .inl hin⟩⟩)
  · rcases hostRead_err (hostRead_of_memRead hread) with hkept | hset
    · exact .inl hkept
    · exact .inr (.inl ⟨hset, _, rest, .inl hin⟩)
  · rcases hostWrite_err (hostWrite_of_memWrite hwrite) with hkept | hset | ⟨hclear, hwhy⟩
    · exact .inl hkept
    · exact .inr (.inl ⟨hset, _, rest, .inr ⟨v, hin⟩⟩)
    · exact .inr (.inr ⟨hclear, acknowledges_or_resetMoves hin hwhy⟩)

/-- A sequencer step that ends a command leaves DONE set. -/
theorem step_completes (hmoves : s.sequencerMoves) (hrun : s.seq ≠ .idle) (hidle : t.seq = .idle) : t.done = true := by
  rcases seqStep_done (seqStep_of_step hmoves h) with ⟨-, hkept⟩ | ⟨hset, -⟩
  · exact absurd (hkept hidle) hrun
  · exact hset

end

/-- Settles O60: completions by `step_completes`, and the rises and falls are the cases of `step_done` and `step_err`. -/
theorem doneAndErrChangeOnlyByTheirEvents : Obligations.DoneAndErrChangeOnlyByTheirEvents := by
  intro s t h
  have hdone := step_done h
  have herr := step_err h
  refine ⟨step_completes h, fun hlow hhigh => ?_, fun hhigh hlow => ?_, fun hlow hhigh => ?_, fun hhigh hlow => ?_⟩
  · simpa [hlow, hhigh] using hdone
  · simpa [hlow, hhigh] using hdone
  · simpa [hlow, hhigh] using herr
  · simpa [hlow, hhigh] using herr

end Sys2Proof.Machine

/-! Unwritten RAM (R33, R285): the commands and the host reads that fault on it, and that no other running command faults. -/

namespace Sys2Proof.Machine

/-! ### The reads that fault -/

section
variable {s : State} {f : BankIx} {snap : Snapshot} (hunwritten : ∃ k < snap.n.toNat, s.bankWord? f k = none)
include hunwritten

theorem unary_of_unwritten_source {rd ra : BankIx} {lane : List Word → List Word} (hsource : f ∈ [ra]) :
    s.unary rd ra snap lane = .fault .unwrittenRam := by
  obtain rfl : f = ra := List.mem_singleton.1 hsource
  exact unary_of_unwritten hunwritten rd lane

theorem binary_of_unwritten_source {rd ra rb : BankIx} {lane : List Word → List Word → List Word}
    (hsource : f ∈ [ra, rb]) : s.binary rd ra rb snap lane = .fault .unwrittenRam := by
  have hnone : s.bank? f snap.n.toNat = none := (bank?_eq_none_iff s f _).2 hunwritten
  rcases List.mem_pair.1 hsource with rfl | rfl
  · rw [State.binary, hnone]
  · rw [State.binary, hnone]
    cases s.bank? ra snap.n.toNat <;> rfl

/-- A running command faults on an unwritten word of any of its sources. -/
theorem exec_of_unwritten_source {i j : Instr} {prog : Progress} (hrun : s.seq = .run j snap prog)
    (hsource : f ∈ sources i) : exec i s = .fault .unwrittenRam := by
  cases i with
  | nop | clr | gsmp | gcdt | unif => exact absurd hsource List.not_mem_nil
  | add rd ra rb => exact (exec_run_add hrun rd ra rb).trans (binary_of_unwritten_source hunwritten hsource)
  | neg rd ra => exact (exec_run_neg hrun rd ra).trans (unary_of_unwritten_source hunwritten hsource)
  | mul rd ra rb => exact (exec_run_mul hrun rd ra rb).trans (binary_of_unwritten_source hunwritten hsource)
  | redq rd ra => exact (exec_run_redq hrun rd ra).trans (unary_of_unwritten_source hunwritten hsource)
  | redqs rd ra => exact (exec_run_redqs hrun rd ra).trans (unary_of_unwritten_source hunwritten hsource)
  | ridl rd ra rb => exact (exec_run_ridl hrun rd ra rb).trans (binary_of_unwritten_source hunwritten hsource)
  | mov rd ra => exact (exec_run_mov hrun rd ra).trans (unary_of_unwritten_source hunwritten hsource)
  | recon rd ra rb => exact (exec_run_recon hrun rd ra rb).trans (binary_of_unwritten_source hunwritten hsource)

end

theorem memRead_of_unwritten {s : State} {off : Nat} (hidle : s.seq = .idle) (hram : RamOffset s.build off)
    (hunwritten : s.ram.word? off = none) : s.memRead off = .fault .unwrittenRam := by
  obtain ⟨hlow, h4⟩ := ramOffset_bounds hram
  simp [State.memRead, Nat.not_lt.2 hlow, (isRam_iff h4).2 hram, busy_of_idle hidle, hunwritten]

/-! ### The faults of a running command -/

/-- Only the Draw of GCDT can fail, and it does so on an unwritten threshold. -/
theorem drawOf_eq_none {i : Instr} {s : State} {snap : Snapshot} {prog : Progress} {u : Word}
    (hsampler : isSampler i = true) (h : drawOf i s snap prog u = none) :
    (∃ rd, i = .gcdt rd) ∧ ∃ j < snap.cdtLen.toNat, s.ram.word? (0x100 + 4 * j) = none := by
  cases i with
  | gcdt rd =>
    refine ⟨⟨rd, rfl⟩, cdt?_eq_none_iff.1 ?_⟩
    cases htable : s.cdt? snap.cdtLen.toNat with
    | none => rfl
    | some table => simp [drawOf, State.gcdtDraw, htable] at h
  | gsmp | unif => exact absurd h (Option.some_ne_none _)
  | _ => exact absurd hsampler Bool.false_ne_true

/-- A fault of a running command names the unwritten source word or used threshold that it read. -/
theorem unwritten_of_exec_fault {s : State} {i j : Instr} {snap : Snapshot} {prog : Progress} {r : Fault}
    (hrun : s.seq = .run j snap prog) (h : exec i s = .fault r) :
    (∃ f ∈ sources i, ∃ k < snap.n.toNat, s.bankWord? f k = none) ∨
      ((∃ rd, i = .gcdt rd) ∧ ∃ l < snap.cdtLen.toNat, s.ram.word? (0x100 + 4 * l) = none) := by
  cases hsampler : isSampler i with
  | true =>
    obtain ⟨rd, -, hexec⟩ := exec_run_sampler hrun hsampler
    rw [hexec] at h
    rcases samplerStep_cases s i rd snap prog (drawOf i s snap prog) with
      ⟨-, hstep⟩ | ⟨_, _, -, -, -, hstep⟩ | ⟨_, -, -, hdraw, -⟩ | ⟨-, hstep⟩ | ⟨-, hstep⟩
    case inr.inr.inl => exact .inr (drawOf_eq_none hsampler hdraw)
    all_goals
      rw [hstep] at h
      cases h
  | false =>
    by_cases hnop : i = .nop
    · rw [hnop, exec_run_nop hrun] at h
      cases h
    · rcases exec_run_commit hrun hsampler hnop with ⟨_, _, _, -, -, -, hstep⟩ | ⟨hsource, -⟩
      · rw [hstep] at h
        cases h
      · exact .inl hsource

/-- Settles O22: the three faults are `exec_of_unwritten_source`, `gcdtDraw_of_unwritten` and `memRead_of_unwritten`, and by
`unwritten_of_exec_fault` a command has no other. -/
theorem unwrittenReadsAreModelFaults : Obligations.UnwrittenReadsAreModelFaults := by
  refine ⟨fun s i snap prog f k hrun hsource hk hword => ?_, fun s rd snap prog u j hrun hmore hoffer hj hword => ?_,
    fun s off rest hidle hwindow hram hword hnext => ?_, fun s i snap prog hrun hsources htable r hfault => ?_⟩
  · exact exec_of_unwritten_source ⟨k, hk, hword⟩ hrun hsource
  · rw [exec_run_gcdt hrun]
    exact samplerStep_fault hmore hoffer (gcdtDraw_of_unwritten ⟨j, hj, hword⟩ u)
  · rw [step_read hnext hwindow.1 hwindow.2]
    exact memRead_of_unwritten (s := { s with inputs := rest }) hidle hram hword
  · rcases unwritten_of_exec_fault hrun hfault with ⟨f, hf, k, hk, hword⟩ | ⟨hgcdt, j, hj, hword⟩
    · exact hsources f hf k hk hword
    · exact htable hgcdt j hj hword

end Sys2Proof.Machine

/-! Soft reset (R272): the reset state of the build around the RAM that was there. -/

namespace Sys2Proof.Machine

theorem writeCtrl_of_softReset {v : Word} (hbit : v.getLsbD 3 = true) (s : State) : s.writeCtrl v = s.softReset :=
  if_pos hbit

/-- A soft reset is the hard reset of the build, with RAM and the host's last read kept. -/
theorem softReset_eq_hardReset (s : State) : s.softReset = { s.hardReset with ram := s.ram, rdata := s.rdata } := rfl

/-- STATUS depends neither on RAM nor on what the host read, so it reads as after a hard reset. -/
theorem statusWord_softReset (s : State) : s.softReset.statusWord = 8 :=
  statusWord_hardReset s

/-- Settles O33: the write is `State.softReset`, which is the hard reset around the old RAM. -/
theorem softResetKeepsOnlyRam : Obligations.SoftResetKeepsOnlyRam := by
  intro s v rest hnext hbit
  have hstep : step s = .next (({ s with inputs := rest } : State).writeCtrl v) :=
    step_writeReg hnext (by decide) (by decide)
  rw [writeCtrl_of_softReset hbit] at hstep
  exact ⟨_, hstep, softReset_eq_hardReset _, rfl, rfl, fun _ => statusWord_softReset _⟩

end Sys2Proof.Machine

/-! The encoder and the decoder are inverse to each other on commands and accepted words (R110–R125). -/

namespace Sys2Proof

/-- An encoded command is selected by its own opcode's mask and match (R113). -/
theorem encode_masked (i : Instr) : encode i &&& i.opcode.mask = i.opcode.matchWord := by
  cases i with
  | nop => exact Laws.FitsForm.nop.1
  | add rd ra rb => exact (Laws.FitsForm.add rd ra rb).1
  | neg rd ra => exact (Laws.FitsForm.neg rd ra).1
  | mul rd ra rb => exact (Laws.FitsForm.mul rd ra rb).1
  | redq rd ra => exact (Laws.FitsForm.redq rd ra).1
  | redqs rd ra => exact (Laws.FitsForm.redqs rd ra).1
  | ridl rd ra rb => exact (Laws.FitsForm.ridl rd ra rb).1
  | mov rd ra => exact (Laws.FitsForm.mov rd ra).1
  | clr rd => exact (Laws.FitsForm.clr rd).1
  | gsmp rd => exact (Laws.FitsForm.gsmp rd).1
  | gcdt rd => exact (Laws.FitsForm.gcdt rd).1
  | unif rd => exact (Laws.FitsForm.unif rd).1
  | recon rd ra rb => exact (Laws.FitsForm.recon rd ra rb).1

theorem decode_encode (i : Instr) : decode (encode i) = .ok i := by
  obtain ⟨rd, ra, rb, hword, hinstr⟩ := encode_fields i
  obtain ⟨hrb, hra, hrd, -⟩ := fields_of_encodeFields i.opcode rd ra rb
  rw [decode_of_masked (encode_masked i), hword, hrd, hra, hrb, hinstr]

/-- Settles O1: the word's mask and match are its own opcode's, and its fields are those encoded. -/
theorem decodeReadsBackEveryEncoding : Obligations.DecodeReadsBackEveryEncoding :=
  decode_encode

/-- Settles O2: a word the decoder accepts is selected by a mask that leaves only the fields free. -/
theorem encodeRebuildsEveryDecodedWord : Obligations.EncodeRebuildsEveryDecodedWord :=
  fun _ _ => Machine.encode_of_decode

/-- Settles O5: each worked word is the encoding of its command, which `decode_encode` reads back. -/
theorem workedEncodingsDecode : Obligations.WorkedEncodingsDecode :=
  ⟨decode_encode (.mul 3 0 1), decode_encode (.add 3 3 2), decode_encode (.recon 6 6 2), decode_encode (.unif 0),
    decode_encode (.clr 2)⟩

end Sys2Proof

/-! The sequencer (R57, R60): which moves change SEQ. -/

namespace Sys2Proof.Machine

section
variable {s t : State} {off : Nat} {v : Word}

theorem hostRead_keeps_seq (h : HostRead s off t) : t.seq = s.seq := by
  cases h <;> rfl

/-- A host write leaves SEQ as it is, starts the command it writes to CMD of an idle block, or resets SEQ by CTRL. -/
theorem hostWrite_seq (h : HostWrite s off v t) :
    t.seq = s.seq ∨
      (∃ i, off = 0x010 ∧ s.seq = .idle ∧ decode v = .ok i ∧ encode i = v ∧ t = s.accept i) ∨
      (off = 0x008 ∧ v.getLsbD 3 = true ∧ t.seq = .idle) := by
  cases h with
  | softReset hat bit => exact .inr (.inr ⟨hat, bit, rfl⟩)
  | accept i hat idle decodes encodes => exact .inr (.inl ⟨i, hat, idle, decodes, encodes, rfl⟩)
  | config t reg => cases reg <;> exact .inl rfl
  | _ => exact .inl rfl

/-- The sequencer leaves SEQ as it is, draws for a sampler, or completes the command. -/
theorem seqStep_seq (h : SeqStep s t) :
    t.seq = s.seq ∨
      (∃ i snap prog prog', s.seq = .run i snap prog ∧ isSampler i = true ∧ prog.scratch.length < snap.n.toNat ∧
        s.offered snap.entSel ≠ none ∧ t.seq = .run i snap prog') ∨
      (∃ i snap prog, s.seq = .run i snap prog ∧ (isSampler i = true → prog.scratch.length = snap.n.toNat) ∧
        t.seq = .idle ∧ t.done = true) := by
  cases h with
  | idle | wait => exact .inl rfl
  | complete snap prog run => exact .inr (.inr ⟨_, snap, prog, run, nofun, rfl, rfl⟩)
  | commit i snap prog rd a b run oneStep =>
    exact .inr (.inr ⟨i, snap, prog, run, fun sampler => by simp [oneStep] at sampler, rfl, rfl⟩)
  | draw i snap prog prog' u run sampler more offer =>
    exact .inr (.inl ⟨i, snap, prog, prog', run, sampler, more, by simp [offer], rfl⟩)
  | samplerCommit i snap prog rd run sampler dest full => exact .inr (.inr ⟨i, snap, prog, run, fun _ => full, rfl, rfl⟩)

end

/-- Settles O43: `hostWrite_seq` for acceptance and soft reset, `seqStep_seq` for the sequencer's own steps. -/
theorem sequencerChangesOnlyByItsStepsAndResets : Obligations.SequencerChangesOnlyByItsStepsAndResets := by
  intro s t h hchange
  rcases step_cases h with ⟨hmoves, hseq⟩ | ⟨_, _, -, rfl⟩ | ⟨rest, hin, rfl⟩ | ⟨_, _, -, -, -, hread⟩ |
    ⟨off, v, rest, hin, -, -, hwrite⟩
  · rcases seqStep_seq hseq with hkept | ⟨i, snap, prog, prog', hrun, hsampler, hmore, hoffer, hnext⟩ |
      ⟨i, snap, prog, hrun, hfull, hidle, hdone⟩
    · exact absurd hkept hchange
    · exact .inr (.inl ⟨i, snap, prog, prog', hrun, hsampler, hmoves, hmore, hoffer, hnext⟩)
    · exact .inr (.inr (.inl ⟨i, snap, prog, hrun, hmoves, hfull, hidle, hdone⟩))
  · exact absurd rfl hchange
  · exact .inr (.inr (.inr ⟨rfl, rest, .inl hin⟩))
  · exact absurd (hostRead_keeps_seq (hostRead_of_memRead hread)) hchange
  · rcases hostWrite_seq (hostWrite_of_memWrite hwrite) with hkept | ⟨i, rfl, hidle, hdec, henc, rfl⟩ | ⟨rfl, hbit, hidle⟩
    · exact absurd hkept hchange
    · exact .inl ⟨v, rest, i, hin, hidle, hdec, henc, rfl, rfl⟩
    · exact .inr (.inr (.inr ⟨hidle, rest, .inr ⟨v, hin, hbit⟩⟩))

end Sys2Proof.Machine

/-! RAM (R30, R59, R87): which moves change a byte. -/

namespace Sys2Proof.Machine

section
variable {s t : State} {off : Nat} {v : Word}

theorem hostRead_keeps_ram (h : HostRead s off t) : t.ram = s.ram := by
  cases h <;> rfl

/-- A host write changes RAM only on an idle block, and then only the word written. -/
theorem hostWrite_ram (h : HostWrite s off v t) :
    t.ram = s.ram ∨ (s.seq = .idle ∧ s.build.isRam off = true ∧ t.ram = s.ram.storeWords off [v]) := by
  cases h with
  | ram idle isRam => exact .inr ⟨idle, isRam, rfl⟩
  | config t reg => cases reg <;> exact .inl rfl
  | _ => exact .inl rfl

/-- The sequencer changes RAM only when it completes a command, by N words at the start of the destination bank (R59). -/
theorem seqStep_ram (h : SeqStep s t) :
    t.ram = s.ram ∨ ∃ i snap prog rd ws, s.seq = .run i snap prog ∧ destination? i = some rd ∧ t.seq = .idle ∧
      t.done = true ∧ ws.length = snap.n.toNat ∧ t.ram = s.ram.storeWords (s.build.bankOffset rd 0) ws := by
  cases h with
  | idle | wait | complete => exact .inl rfl
  | commit i snap prog rd a b run _ _ dest len => exact .inr ⟨i, snap, prog, rd, _, run, dest, rfl, rfl, len, rfl⟩
  | draw _ snap => exact .inl (State.taken_ram s snap.entSel)
  | samplerCommit i snap prog rd run _ dest full => exact .inr ⟨i, snap, prog, rd, _, run, dest, rfl, rfl, full, rfl⟩

end

/-- A write of words leaves a byte as it was, or the byte lies in those words. -/
theorem byte?_storeWords_or (m : Memory) (off : Nat) (ws : List Word) (a : Nat) :
    Memory.byte? (m.storeWords off ws) a = Memory.byte? m a ∨ (off ≤ a ∧ a < off + 4 * ws.length) := by
  by_cases h : off ≤ a ∧ a < off + 4 * ws.length
  · exact .inr h
  · exact .inl (byte?_storeWords_outside m off ws a (by omega))

/-- Settles O44: `hostWrite_ram` and `seqStep_ram` say which words are written, `byte?_storeWords_or` which bytes change. -/
theorem ramChangesOnlyByHostWritesAndCommits : Obligations.RamChangesOnlyByHostWritesAndCommits := by
  intro s t a h
  rcases step_cases h with ⟨hmoves, hseq⟩ | ⟨_, _, -, rfl⟩ | ⟨rest, hin, rfl⟩ | ⟨_, _, -, -, -, hread⟩ |
    ⟨off, v, rest, hin, -, -, hwrite⟩
  · rcases seqStep_ram hseq with hkept | ⟨i, snap, prog, rd, ws, hrun, hdest, hidle, hdone, hlen, hram⟩
    · exact .inl (congrArg (Memory.byte? · a) hkept)
    · rw [hram]
      refine (byte?_storeWords_or ..).imp_right fun hbank => .inr (.inr ?_)
      rw [hlen] at hbank
      exact ⟨i, snap, prog, rd, hrun, hmoves, hdest, hidle, hdone, hbank⟩
  · exact .inl rfl
  · exact .inr (.inl ⟨rest, hin⟩)
  · exact .inl (congrArg (Memory.byte? · a) (hostRead_keeps_ram (s := s.pop) (hostRead_of_memRead hread)))
  · rcases hostWrite_ram (hostWrite_of_memWrite hwrite) with hkept | ⟨hidle, hisRam, hram⟩
    · exact .inl (congrArg (Memory.byte? · a) hkept)
    · rw [hram]
      exact (byte?_storeWords_or ..).imp_right fun hword => .inr (.inl ⟨off, v, rest, hidle, hin, hisRam, hword⟩)

end Sys2Proof.Machine

/-! The invariant of reachable states: it holds after reset, and every operation of the machine keeps it. -/

namespace Sys2Proof.Machine

/-! ### RAM -/

/-- The bytes written after a write of words are those of the words and those written before. -/
theorem isSome_byte?_storeWords (m : Memory) (off : Nat) (ws : List Word) (a : Nat) :
    (Memory.byte? (m.storeWords off ws) a).isSome = true ↔
      (off ≤ a ∧ a < off + 4 * ws.length) ∨ (Memory.byte? m a).isSome = true := by
  rw [Memory.storeWords, byte?_store, length_flatMap_wordBytes]
  split
  · next hin =>
    have hlen : a - off < (ws.flatMap wordBytes).length := by rw [length_flatMap_wordBytes]; omega
    simp [hin, List.getElem?_eq_getElem hlen]
  · next hout => simp [hout]

/-- RAM ends at word boundaries, so it holds all four bytes of a word or none (R84). -/
theorem isRam_of_isRam_word {b : Build} {off a : Nat} (h4 : off % 4 = 0) (h : b.isRam off = true)
    (ha : off ≤ a ∧ a < off + 4) : b.isRam a = true := by
  simp only [Build.isRam, Bool.or_eq_true, Bool.and_eq_true, decide_eq_true_eq] at h ⊢
  simp only [cdtBase, bankBase] at h ⊢
  omega

/-- Words 0 to NMAX − 1 of an existing bank lie in RAM (R84). -/
theorem isRam_of_bank {b : Build} {rd : BankIx} {n a : Nat} (hrd : rd.toNat < b.nb) (hn : n ≤ b.nmax)
    (ha : b.bankOffset rd 0 ≤ a ∧ a < b.bankOffset rd 0 + 4 * n) : b.isRam a = true := by
  have hbank : (rd.toNat + 1) * b.nmax ≤ b.nb * b.nmax := Nat.mul_le_mul_right _ hrd
  rw [Nat.succ_mul] at hbank
  simp only [Build.isRam, Build.bankOffset, Bool.or_eq_true, Bool.and_eq_true, decide_eq_true_eq] at ha ⊢
  omega

theorem bankOffset_mod_four (b : Build) (f : BankIx) (k : Nat) : b.bankOffset f k % 4 = 0 := by
  simp only [Build.bankOffset, bankBase]
  omega

/-- A write of whole words to RAM keeps the invariant (R33, R84). -/
theorem inv_storeWords {s : State} {off : Nat} {ws : List Word} (h : s.Inv) (h4 : off % 4 = 0)
    (hmapped : ∀ a, off ≤ a ∧ a < off + 4 * ws.length → s.build.isRam a = true) :
    State.Inv { s with ram := s.ram.storeWords off ws } where
  build := h.build
  ramWf := storeWords_wf h.ramWf off ws
  ramMapped a ha := ((isSome_byte?_storeWords ..).1 ha).elim (hmapped a) (h.ramMapped a)
  ramWhole a := by
    have hword : (off ≤ a ∧ a < off + 4 * ws.length) ↔ (off ≤ a / 4 * 4 ∧ a / 4 * 4 < off + 4 * ws.length) := by omega
    rw [Bool.eq_iff_iff, isSome_byte?_storeWords, isSome_byte?_storeWords, hword, h.ramWhole a]
  fifoFits := h.fifoFits
  noErr := h.noErr
  errKnown := h.errKnown
  seqOk := h.seqOk

/-! ### Errors -/

theorem code_bounds (c : ErrCode) : 1 ≤ c.code.toNat ∧ c.code.toNat ≤ 7 := by
  cases c <;> decide

/-- Raising an error keeps the recorded one, or records a known code. -/
theorem inv_raiseError {s : State} (h : s.Inv) (c : ErrCode) (info : Word) : (s.raiseError c info).Inv where
  build := h.build
  ramWf := h.ramWf
  ramMapped := h.ramMapped
  ramWhole := h.ramWhole
  fifoFits := h.fifoFits
  noErr := nofun
  errKnown _ := by
    rw [State.raiseError_errCode]
    split
    · next herr => exact h.errKnown herr
    · exact code_bounds c
  seqOk := h.seqOk

/-! ### Resets -/

theorem inv_resetOf {b : Build} (h : b.Legal) : (State.resetOf b).Inv where
  build := h
  ramWf := resetOf_ram_wf b
  ramMapped := nofun
  ramWhole _ := rfl
  fifoFits := Nat.zero_le _
  noErr _ := ⟨rfl, rfl⟩
  errKnown := nofun
  seqOk := trivial

/-- Settles O46: `inv_resetOf`, of which the reference build's reset state is one case. -/
theorem invariantHoldsAtReset : Obligations.InvariantHoldsAtReset :=
  ⟨inv_resetOf (by decide), fun _ => inv_resetOf⟩

theorem inv_hardReset {s : State} (h : s.Inv) : s.hardReset.Inv :=
  { inv_resetOf h.build with }

theorem inv_softReset {s : State} (h : s.Inv) : s.softReset.Inv :=
  { inv_resetOf h.build with
    ramWf := h.ramWf
    ramMapped := h.ramMapped
    ramWhole := h.ramWhole }

/-! ### The sequencer -/

/-- What `State.seqOk` asks of a running command. -/
structure RunOk (b : Build) (cmd : Word) (i : Instr) (snap : Snapshot) (prog : Progress) : Prop where
  banks : i.wf b.nb = true
  word : cmd = encode i
  ring : i ≠ .nop → RingValid b snap.n snap.q
  sigma : (∃ rd, i = .gsmp rd) → snap.gsigma ≠ 0
  table : (∃ rd, i = .gcdt rd) → snap.cdtLen.toNat ≤ cdtMax
  oneStep : isSampler i = false → prog = Progress.start
  fits : prog.scratch.length ≤ snap.n.toNat
  residues : ∀ w ∈ prog.scratch, w.toNat < snap.q.toNat
  pending : prog.pending ≠ none → (∃ rd, i = .unif rd) ∧ 32 < unifBits snap.q

section
variable {s : State} {i : Instr} {snap : Snapshot} {prog : Progress}

theorem seqOk_iff_of_run (hrun : s.seq = .run i snap prog) : s.seqOk ↔ RunOk s.build s.cmd i snap prog := by
  simp only [State.seqOk, hrun]
  constructor
  · rintro ⟨banks, word, ring, sigma, table, oneStep, fits, residues, pending⟩
    exact { banks, word, ring, sigma, table, oneStep, fits, residues, pending }
  · rintro ⟨banks, word, ring, sigma, table, oneStep, fits, residues, pending⟩
    exact ⟨banks, word, ring, sigma, table, oneStep, fits, residues, pending⟩

theorem seqOk_of_idle (hidle : s.seq = .idle) : s.seqOk := by
  simp only [State.seqOk, hidle]

end

theorem eq_nop_of_opcode {i : Instr} (h : i.opcode = .nop) : i = .nop := by
  cases i with
  | nop => rfl
  | _ => cases h

/-- What the configuration check of each command grants (R53, R54, R120). -/
theorem configFits_of_cfgOk {s : State} {i : Instr} (h : cfgOk i s = true) : ConfigFits i.opcode s := by
  obtain ⟨rd, ra, rb, -, hinstr⟩ := encode_fields i
  rw [← hinstr] at h
  exact (cfgOk_instr_iff ..).1 h

/-- An accepted command starts with nothing produced, under a configuration that fits it (R120, R121). -/
theorem inv_accept {s : State} {i : Instr} (h : s.Inv) (hcfg : cfgOk i s = true) (hbanks : i.wf s.build.nb = true) :
    (s.accept i).Inv := by
  obtain ⟨hring, hsigma, htable⟩ := configFits_of_cfgOk hcfg
  refine { h with seqOk := (seqOk_iff_of_run (s := s.accept i) rfl).2 ?_ }
  exact
    { banks := hbanks
      word := rfl
      ring := fun hnop => hring fun hop => hnop (eq_nop_of_opcode hop)
      sigma := by rintro ⟨rd, rfl⟩; exact hsigma rfl
      table := by rintro ⟨rd, rfl⟩; exact htable rfl
      oneStep := fun _ => rfl
      fits := Nat.zero_le _
      residues := nofun
      pending := fun hpending => absurd rfl hpending }

section
variable {s : State} {i : Instr} {snap : Snapshot} {prog prog' : Progress} {u : Word}

theorem unifDraw_cases (snap : Snapshot) (prog : Progress) (w : Word) :
    ((unifDraw snap prog w).scratch = prog.scratch ∨
      ∃ a, (unifDraw snap prog w).scratch = prog.scratch ++ [modQ snap.q a]) ∧
    ((unifDraw snap prog w).pending = prog.pending ∨ 32 < unifBits snap.q) := by
  have hattempt : ∀ t, (unifAttempt snap.q prog.scratch t).scratch = prog.scratch ∨
      ∃ a, (unifAttempt snap.q prog.scratch t).scratch = prog.scratch ++ [modQ snap.q a] := by
    intro t
    simp only [unifAttempt]
    split
    · exact .inr ⟨_, rfl⟩
    · exact .inl rfl
  rcases le_or_gt (unifBits snap.q) 32 with hshort | hlong
  · rw [unifDraw_oneWord hshort]
    exact ⟨hattempt _, .inl rfl⟩
  · refine ⟨?_, .inr hlong⟩
    cases hpending : prog.pending with
    | none =>
      rw [unifDraw_lowWord hlong hpending]
      exact .inl rfl
    | some low =>
      rw [unifDraw_highWord hlong hpending]
      exact hattempt _

/-- A Draw adds at most one coefficient, a residue, and only a two-word UNIF leaves a word pending (R183, R190, R192). -/
theorem drawOf_cases (h : drawOf i s snap prog u = some prog') :
    (prog'.scratch = prog.scratch ∨ ∃ a, prog'.scratch = prog.scratch ++ [modQ snap.q a]) ∧
    (prog'.pending = prog.pending ∨ ((∃ rd, i = .unif rd) ∧ 32 < unifBits snap.q)) := by
  cases i with
  | gsmp => cases h; exact ⟨.inr ⟨_, rfl⟩, .inl rfl⟩
  | gcdt =>
    simp only [drawOf, State.gcdtDraw] at h
    split at h <;> cases h
    exact ⟨.inr ⟨_, rfl⟩, .inl rfl⟩
  | unif rd =>
    cases h
    exact ⟨(unifDraw_cases ..).1, (unifDraw_cases ..).2.imp_right fun hlong => ⟨⟨rd, rfl⟩, hlong⟩⟩
  | _ => cases h

/-- A Draw keeps what a running sampler satisfies. -/
theorem runOk_draw {b : Build} {cmd : Word} (h : RunOk b cmd i snap prog) (hsampler : isSampler i = true)
    (hmore : prog.scratch.length < snap.n.toNat) (hdraw : drawOf i s snap prog u = some prog') :
    RunOk b cmd i snap prog' := by
  have hq : 0 < snap.q.toNat := by
    have := (h.ring fun hnop => by simp [hnop, isSampler] at hsampler).2.2
    omega
  obtain ⟨hscratch, hpending⟩ := drawOf_cases hdraw
  refine { h with oneStep := fun hone => ?_, fits := ?_, residues := fun w hw => ?_, pending := fun hne => ?_ }
  · simp [hsampler] at hone
  · rcases hscratch with hkept | ⟨a, hadd⟩
    · exact hkept ▸ h.fits
    · simpa [hadd] using hmore
  · rcases hscratch with hkept | ⟨a, hadd⟩
    · exact h.residues w (hkept ▸ hw)
    · rw [hadd, List.mem_append, List.mem_singleton] at hw
      rcases hw with hw | rfl
      · exact h.residues w hw
      · exact modQ_lt a hq
  · rcases hpending with hkept | hunif
    · exact h.pending (hkept ▸ hne)
    · exact hunif

end

section
variable {s : State} {i : Instr} {snap : Snapshot} {prog : Progress}

theorem inv_taken (h : s.Inv) (sel : Bool) : (s.taken sel).Inv := by
  cases sel with
  | true => exact { h with }
  | false => exact { h with fifoFits := (List.length_tail ▸ Nat.sub_le ..).trans h.fifoFits }

/-- Ending the command leaves nothing to ask of the sequencer. -/
theorem inv_complete (h : s.Inv) : s.complete.Inv :=
  { h with seqOk := trivial }

/-- The commit writes N words of an existing bank, and N is at most NMAX (R53, R59). -/
theorem inv_commit {rd : BankIx} {ws : List Word} (h : s.Inv) (hrun : s.seq = .run i snap prog) (hnop : i ≠ .nop)
    (hdest : destination? i = some rd) (hlen : ws.length = snap.n.toNat) : (s.commit rd ws).Inv := by
  have hok := (seqOk_iff_of_run hrun).1 h.seqOk
  obtain ⟨⟨k, hk, hmax⟩, -, -⟩ := hok.ring hnop
  have hrd : rd.toNat < s.build.nb := by
    refine (wf_iff i _).1 hok.banks rd ?_
    cases i <;> cases hdest <;> exact List.mem_cons_self
  exact inv_complete (inv_storeWords h (bankOffset_mod_four ..) fun a ha =>
    isRam_of_bank hrd (by omega : ws.length ≤ s.build.nmax) ha)

end

/-! ### The agents' moves -/

section
variable {s t : State} {off : Nat} {v : Word} (hinv : s.Inv)
include hinv

theorem inv_pop : s.pop.Inv :=
  { hinv with }

theorem inv_hostRead (h : HostRead s off t) : t.Inv := by
  cases h with
  | returned => exact { hinv with }
  | refused => exact { inv_raiseError hinv .hostAcc (BitVec.ofNat 32 off) with }

theorem inv_hostWrite (h4 : off % 4 = 0) (h : HostWrite s off v t) : t.Inv := by
  cases h with
  | softReset => exact inv_softReset hinv
  | ctrl _ _ fifo flush =>
    refine { hinv with fifoFits := ?_ }
    rcases flush with rfl | ⟨rfl, -⟩
    · exact hinv.fifoFits
    · exact Nat.zero_le _
  | clearErr => exact { hinv with noErr := fun _ => ⟨rfl, rfl⟩, errKnown := nofun }
  | clearDone => exact { hinv with }
  | error c info => exact inv_raiseError hinv c info
  | accept i _ _ _ _ cfg banks => exact inv_accept hinv cfg banks
  | push _ room => exact { hinv with fifoFits := by simpa using room }
  | config t reg => cases reg <;> exact { hinv with }
  | ram _ isRam => exact inv_storeWords hinv h4 fun a ha => isRam_of_isRam_word h4 isRam ha
  | nothing => exact hinv

theorem inv_seqStep (h : SeqStep s t) : t.Inv := by
  cases h with
  | idle | wait => exact hinv
  | complete => exact inv_complete hinv
  | commit i snap prog rd a b run _ notNop dest len => exact inv_commit hinv run notNop dest len
  | draw i snap prog prog' u run sampler more offer draws =>
    have hok := (seqOk_iff_of_run run).1 hinv.seqOk
    refine { inv_taken hinv snap.entSel with seqOk := (seqOk_iff_of_run rfl).2 ?_ }
    simpa using runOk_draw hok sampler more draws
  | samplerCommit i snap prog rd run sampler dest full =>
    exact inv_commit hinv run (by rintro rfl; simp [isSampler] at sampler) dest full

end

/-- Settles O47: one lemma per agent, each from the lemmas about the operations it performs. -/
theorem everyStepKeepsTheInvariant : Obligations.EveryStepKeepsTheInvariant := by
  intro s t hinv h
  have hpop := inv_pop hinv
  rcases step_cases h with ⟨-, hseq⟩ | ⟨_, _, -, rfl⟩ | ⟨_, -, rfl⟩ | ⟨_, _, -, -, -, hread⟩ | ⟨_, _, _, -, -, h4, hwrite⟩
  · exact inv_seqStep hpop hseq
  · exact { hpop with }
  · exact inv_hardReset hpop
  · exact inv_hostRead hpop (hostRead_of_memRead hread)
  · exact inv_hostWrite hpop h4 (hostWrite_of_memWrite hwrite)

end Sys2Proof.Machine

/-! Where a command stops (R233, R235): `exec` answers a next state, or faults on an unwritten word it needs. -/

namespace Sys2Proof.Machine

/-- The two outcomes of a meaning: a next state, or on a running block the fault of R33. -/
theorem exec_cases (i : Instr) (s : State) :
    (∃ t, exec i s = .next t) ∨ (s.seq ≠ .idle ∧ exec i s = .fault .unwrittenRam) := by
  cases hseq : s.seq with
  | idle => exact .inl ⟨_, exec_idle hseq i⟩
  | run j snap prog =>
    cases hsampler : isSampler i with
    | true =>
      obtain ⟨rd, -, hexec⟩ := exec_run_sampler hseq hsampler
      rw [hexec]
      rcases samplerStep_cases s i rd snap prog (drawOf i s snap prog) with
        ⟨-, h⟩ | ⟨_, _, -, -, -, h⟩ | ⟨_, -, -, -, h⟩ | ⟨-, h⟩ | ⟨-, h⟩
      case inr.inr.inl => exact .inr ⟨nofun, h⟩
      all_goals exact .inl ⟨_, h⟩
    | false =>
      by_cases hnop : i = .nop
      · exact .inl ⟨_, hnop ▸ exec_run_nop hseq⟩
      · rcases exec_run_commit hseq hsampler hnop with ⟨_, _, _, -, -, -, h⟩ | ⟨-, h⟩
        · exact .inl ⟨_, h⟩
        · exact .inr ⟨nofun, h⟩

/-- Settles O24: the outcomes are those of `exec_cases`, and `unwritten_of_exec_fault` names the word. -/
theorem commandsStopOnlyOnUnwrittenRam : Obligations.CommandsStopOnlyOnUnwrittenRam := by
  intro s i
  rcases exec_cases i s with ⟨t, hnext⟩ | ⟨hbusy, hfault⟩
  · rw [hnext]
    exact ⟨nofun, nofun⟩
  · refine ⟨by rw [hfault]; exact nofun, fun r h => ⟨?_, ?_⟩⟩
    · rw [hfault] at h
      cases h
      rfl
    · cases hseq : s.seq with
      | idle => exact absurd hseq hbusy
      | run j snap prog => exact ⟨j, snap, prog, rfl, unwritten_of_exec_fault hseq h⟩

/-- No sequencer step touches the error record. -/
theorem seqStep_keeps_errRecord {s t : State} (h : SeqStep s t) :
    t.err = s.err ∧ t.errCode = s.errCode ∧ t.errInfo = s.errInfo := by
  refine ⟨seqStep_keeps_err h, ?_⟩
  cases h with
  | draw _ snap => exact ⟨State.taken_errCode s snap.entSel, State.taken_errInfo s snap.entSel⟩
  | _ => exact ⟨rfl, rfl⟩

/-- A running command whose sources and used thresholds are written has a next state. -/
theorem exec_next_of_written {s : State} {i : Instr} {snap : Snapshot} {prog : Progress} (hrun : s.seq = .run i snap prog)
    (hsources : ∀ f ∈ sources i, ∀ k < snap.n.toNat, s.bankWord? f k ≠ none)
    (htable : (∃ rd, i = .gcdt rd) → ∀ j < snap.cdtLen.toNat, s.ram.word? (0x100 + 4 * j) ≠ none) :
    ∃ t, exec i s = .next t ∧ SeqStep s t := by
  rcases exec_cases i s with ⟨t, hnext⟩ | ⟨-, hfault⟩
  · exact ⟨t, hnext, seqStep_of_sequencerStep ((sequencerStep_run hrun).trans hnext)⟩
  · rcases unwritten_of_exec_fault hrun hfault with ⟨f, hf, k, hk, hword⟩ | ⟨hgcdt, j, hj, hword⟩
    · exact absurd hword (hsources f hf k hk)
    · exact absurd hword (htable hgcdt j hj)

/-- Settles O23: `exec_next_of_written`, and the sequencer leaves the error record alone. -/
theorem acceptedCommandsNeverFail : Obligations.AcceptedCommandsNeverFail := by
  intro s i snap prog hrun hsources htable
  obtain ⟨t, hnext, hstep⟩ := exec_next_of_written hrun hsources htable
  exact ⟨t, hnext, seqStep_keeps_errRecord hstep⟩

end Sys2Proof.Machine

/-! The error record (R231, R241): no step changes it while ERR stays 1. -/

namespace Sys2Proof.Machine

/-- While ERR stays 1 the recorded error stays, and a new one has a known code. -/
def RecordStays (s t : State) : Prop :=
  t.err = true →
    (s.err = true → t.errCode = s.errCode ∧ t.errInfo = s.errInfo) ∧
    (s.err = false → 1 ≤ t.errCode.toNat ∧ t.errCode.toNat ≤ 7)

section
variable {s t : State} {off : Nat} {v : Word}

theorem recordStays_of_eq (h : t.err = s.err ∧ t.errCode = s.errCode ∧ t.errInfo = s.errInfo) : RecordStays s t :=
  fun herr => ⟨fun _ => h.2, fun hlow => by rw [← h.1, herr] at hlow; cases hlow⟩

theorem recordStays_of_clear (h : t.err = false) : RecordStays s t :=
  fun herr => by rw [h] at herr; cases herr

theorem recordStays_raiseError (s : State) (c : ErrCode) (info : Word) : RecordStays s (s.raiseError c info) := by
  refine fun _ => ⟨fun hlater => ?_, fun hfirst => ?_⟩
  · rw [raiseError_of_later hlater]
    exact ⟨rfl, rfl⟩
  · rw [errCode_of_first hfirst]
    exact code_bounds c

theorem recordStays_hostRead (h : HostRead s off t) : RecordStays s t := by
  cases h with
  | returned => exact recordStays_of_eq ⟨rfl, rfl, rfl⟩
  | refused => exact recordStays_raiseError s .hostAcc (BitVec.ofNat 32 off)

theorem recordStays_hostWrite (h : HostWrite s off v t) : RecordStays s t := by
  cases h with
  | softReset | clearErr => exact recordStays_of_clear rfl
  | error c info => exact recordStays_raiseError s c info
  | config t reg => cases reg <;> exact recordStays_of_eq ⟨rfl, rfl, rfl⟩
  | _ => exact recordStays_of_eq ⟨rfl, rfl, rfl⟩

end

/-- Settles O28: one lemma per agent; a reset and an acknowledgement leave ERR 0. -/
theorem recordedErrorStaysUntilCleared : Obligations.RecordedErrorStaysUntilCleared := by
  intro s t h
  rcases step_cases h with ⟨-, hseq⟩ | ⟨_, _, -, rfl⟩ | ⟨_, -, rfl⟩ | ⟨_, _, -, -, -, hread⟩ | ⟨_, _, _, -, -, -, hwrite⟩
  · exact recordStays_of_eq (s := s.pop) (seqStep_keeps_errRecord hseq)
  · exact recordStays_of_eq ⟨rfl, rfl, rfl⟩
  · exact recordStays_of_clear rfl
  · exact recordStays_hostRead (s := s.pop) (hostRead_of_memRead hread)
  · exact recordStays_hostWrite (s := s.pop) (hostWrite_of_memWrite hwrite)

end Sys2Proof.Machine

/-! Host accesses to RAM and their results (R84–R87): a word written reads back, and a read changes nothing. -/

namespace Sys2Proof.Machine

section
variable {s : State} {off : Nat} (hidle : s.seq = .idle) (hram : RamOffset s.build off)
include hidle hram

theorem memRead_of_written {w : Word} (hword : s.ram.word? off = some w) : s.memRead off = .next (s.returns w) := by
  obtain ⟨hlow, h4⟩ := ramOffset_bounds hram
  simp [State.memRead, Nat.not_lt.2 hlow, (isRam_iff h4).2 hram, busy_of_idle hidle, hword]

theorem memWrite_of_idle (v : Word) : s.memWrite off v = .next { s with ram := s.ram.storeWords off [v] } := by
  obtain ⟨hlow, h4⟩ := ramOffset_bounds hram
  simp [State.memWrite, Nat.not_lt.2 hlow, (isRam_iff h4).2 hram, busy_of_idle hidle]

variable (hwindow : off < windowSize) {rest : List Input}
include hwindow

theorem step_ramRead (hnext : s.inputs = .read (s.build.base + off) 4 :: rest) {w : Word}
    (hword : s.ram.word? off = some w) : step s = .next { s with inputs := rest, rdata := some w } := by
  rw [step_read hnext hwindow (ramOffset_bounds hram).2]
  exact memRead_of_written (s := { s with inputs := rest }) hidle hram hword

theorem step_ramWrite {v : Word} (hnext : s.inputs = .write (s.build.base + off) 4 v :: rest) :
    step s = .next { s with inputs := rest, ram := s.ram.storeWords off [v] } := by
  rw [step_write hnext hwindow (ramOffset_bounds hram).2]
  exact memWrite_of_idle (s := { s with inputs := rest }) hidle hram v

end

/-- After a write of one aligned word, that word reads as written and every other aligned word as before. -/
theorem word?_storeWord (m : Memory) {off off' : Nat} (v : Word) (h4 : off % 4 = 0) (h4' : off' % 4 = 0) :
    Memory.word? (m.storeWords off [v]) off' = if off' = off then some v else m.word? off' := by
  split
  · next h =>
    subst h
    exact word?_storeWords_inside m off' [v] 0 Nat.zero_lt_one
  · next h => exact word?_storeWords_outside m off [v] off' (by rw [List.length_singleton]; omega)

/-- Settles O36: `memRead_of_written` for the bank's place in the window; for the write and the read, `word?_storeWord` is the
word returned. -/
theorem ramWriteReadsBack : Obligations.RamWriteReadsBack := by
  refine ⟨fun s f i w hidle hf hi hword => ?_, ?_⟩
  · exact memRead_of_written hidle (.inr ⟨f.toNat, hf, i, hi, rfl⟩) hword
  · intro s off off' v w rest hidle hwindow hwindow' hram hram' hother hsame hnext
    have h4 : off % 4 = 0 := (ramOffset_bounds hram).2
    have h4' : off' % 4 = 0 := (ramOffset_bounds hram').2
    have hread : Memory.word? (s.ram.storeWords off [v]) off' = some w := by
      rw [word?_storeWord s.ram v h4 h4']
      split
      · next h => rw [hsame h]
      · next h => exact hother h
    have hwritten := step_ramWrite hidle hram hwindow hnext
    have hreturned := step_ramRead
      (s := { s with inputs := .read (s.build.base + off') 4 :: rest, ram := s.ram.storeWords off [v] })
      hidle hram' hwindow' rfl hread
    refine ⟨_, (runSteps_of_step 1 hwritten).trans (runSteps_of_step 0 hreturned), rfl, fun a ha => ?_, rfl⟩
    exact byte?_storeWords_outside s.ram off [v] a ha

/-- No read depends on what the host read before. -/
theorem memRead_returns (s : State) (v : Word) (off : Nat) : (s.returns v).memRead off = s.memRead off := rfl

/-- Settles O38: a read that is not refused only records its word, which `memRead_returns` says no read depends on. -/
theorem readsHaveNoSideEffects : Obligations.ReadsHaveNoSideEffects := by
  intro s t off hfree h
  rcases hostRead_of_memRead h with v | ⟨hbusy, hram⟩
  · exact ⟨rfl, (memRead_returns s v off).trans h⟩
  · rcases hfree with hidle | hout
    · exact absurd hidle ((busy_iff s).1 hbusy)
    · rw [hram] at hout
      cases hout

end Sys2Proof.Machine

/-! The distance from a/d to its rounding (R184). -/

namespace Sys2Proof.Machine

/-- Rounding moves by half a unit at most, and by half a unit only to an even integer. -/
theorem rhe_distance {a d : Int} (hd : 0 < d) :
    2 * |a - rhe a d * d| ≤ d ∧ (2 * |a - rhe a d * d| = d → rhe a d % 2 = 0) := by
  obtain ⟨q, rho, rfl, hnonneg, hlt⟩ : ∃ q rho, a = q * d + rho ∧ 0 ≤ rho ∧ rho < d :=
    ⟨a / d, a % d, (Int.ediv_mul_add_emod a d).symm, Int.emod_nonneg a hd.ne', Int.emod_lt_of_pos a hd⟩
  have hdown : |q * d + rho - q * d| = rho := by rw [add_sub_cancel_left, abs_of_nonneg hnonneg]
  have hup : |q * d + rho - (q + 1) * d| = d - rho := by
    rw [show q * d + rho - (q + 1) * d = rho - d by ring, abs_of_neg (by omega), neg_sub]
  rw [rhe_mul_add hnonneg hlt]
  split_ifs with habove hbelow heven
  · rw [hup]; omega
  · rw [hdown]; omega
  · rw [hdown]; omega
  · rw [hup]; omega

/-- Two integers lie a unit apart, so their distances from a/d add up to a unit. -/
theorem le_distance_add_distance {a d m r : Int} (hd : 0 < d) (hne : m ≠ r) : d ≤ |a - m * d| + |a - r * d| :=
  calc
    d ≤ |r - m| * d := le_mul_of_one_le_left hd.le (Int.one_le_abs (sub_ne_zero.2 hne.symm))
    _ = |a - m * d - (a - r * d)| := by
      rw [← abs_of_pos hd, ← abs_mul, abs_of_pos hd]
      congr 1
      ring
    _ ≤ |a - m * d| + |a - r * d| := abs_sub _ _

/-- Settles O54: by `rhe_distance` the rounding is within half a unit, so by `le_distance_add_distance` no other integer is
nearer. -/
theorem roundingIsToANearestInteger : Obligations.RoundingIsToANearestInteger := by
  intro a d hd
  obtain ⟨hhalf, htie⟩ := rhe_distance (a := a) hd
  refine ⟨fun m => ?_, fun m hne hequal => htie ?_⟩
  · by_cases hm : m = rhe a d
    · rw [hm]
    · have := le_distance_add_distance (a := a) hd hm
      omega
  · have := le_distance_add_distance (a := a) hd hne
    omega

end Sys2Proof.Machine

/-! Registers and single moves: the fields of CTRL, STATUS and the configuration registers (R39–R47), and the moves whose
outcome is one operation of the machine. -/

namespace Sys2Proof.Machine

/-! ### The moves -/

/-- Settles O6: a CMD write is `step_writeCmd`, whose idle phase is `exec`; the sequencer's move is `sequencerStep_run`. -/
theorem stepRunsTheDecodedCommand : Obligations.StepRunsTheDecodedCommand := by
  refine ⟨fun s w i rest hidle hnext hdec => ?_, fun s i snap prog hrun => ⟨fun hnil => ?_, fun rest hnext => ?_⟩⟩
  · have hidle' : State.seq { s with inputs := rest } = .idle := hidle
    rw [step_writeCmd hnext, writeCmd_of_ok hidle' hdec, exec_idle hidle']
  · rw [step_nil hnil, sequencerStep_run hrun]
  · rw [step_cons hnext]
    exact sequencerStep_run (s := { s with inputs := rest }) hrun

theorem access_outside {s : State} {addr : Nat} (h : addr < s.build.base ∨ s.build.base + windowSize ≤ addr) (size : Nat)
    (act : Nat → Host.Outcome State Fault Refusal) : s.access addr size act = .fault .outsideWindow :=
  if_pos h

/-- Settles O26: `access_outside`, for a read and for a write. -/
theorem accessOutsideTheWindowFaults : Obligations.AccessOutsideTheWindowFaults := by
  intro s addr size v rest e he hnext hout
  rw [step_cons hnext]
  rcases he with rfl | rfl
  · exact access_outside (s := { s with inputs := rest }) hout size _
  · exact access_outside (s := { s with inputs := rest }) hout size fun off => State.memWrite { s with inputs := rest } off v

/-- Settles O34: the move is `State.hardReset`, the reset state of the build around the offer and the schedule. -/
theorem hardResetLeavesTheResetState : Obligations.HardResetLeavesTheResetState :=
  fun _ _ hnext => step_cons hnext

/-! ### Register fields -/

/-- Cutting a word to k bits is masking it with those k bits. -/
theorem setWidth_setWidth_eq_and (v : Word) (k : Nat) :
    ((v.setWidth k).setWidth 32 : Word) = v &&& (BitVec.allOnes k).setWidth 32 := by
  ext i hi
  by_cases hk : i < k <;> simp [hk, BitVec.getLsbD_eq_getElem hi]

/-- Settles O39: each write is one row of the register map, and GCFG and CDT_LEN keep the bits of their masks. -/
theorem configurationRegistersStoreWhatIsWritten : Obligations.ConfigurationRegistersStoreWhatIsWritten :=
  fun _ v => ⟨rfl, rfl, rfl, rfl, rfl, rfl, rfl, rfl, rfl, rfl, ⟨_, rfl, rfl, setWidth_setWidth_eq_and v 5⟩,
    _, rfl, rfl, setWidth_setWidth_eq_and v 7⟩

/-- Two words that agree in their low k bits and have no others are equal. -/
theorem eq_of_low_bits {x y : Word} {k : Nat} (hlow : ∀ i < k, x.getLsbD i = y.getLsbD i) (hx : x >>> k = 0)
    (hy : y >>> k = 0) : x = y := by
  refine BitVec.eq_of_getLsbD_eq fun i _ => ?_
  rcases lt_or_ge i k with hi | hi
  · exact hlow i hi
  · have hbit : (x >>> k).getLsbD (i - k) = (y >>> k).getLsbD (i - k) := by rw [hx, hy]
    rwa [BitVec.getLsbD_ushiftRight, BitVec.getLsbD_ushiftRight, Nat.add_sub_cancel' hi] at hbit

/-- CTRL reads the low three bits last written to it (R39). -/
theorem ctrlWord_eq_and {s : State} {v : Word} (hdone : s.ieDone = v.getLsbD 0) (herr : s.ieErr = v.getLsbD 1)
    (hsel : s.entSel = v.getLsbD 2) : s.ctrlWord = v &&& 0x7 := by
  obtain ⟨h0, h1, h2, hrest⟩ := ctrlWord_bits s
  refine eq_of_low_bits (k := 3) (fun i hi => ?_) hrest ?_
  · interval_cases i
    · exact h0.trans (hdone.trans (by simp))
    · exact h1.trans (herr.trans (by simp))
    · exact h2.trans (hsel.trans (by simp))
  · rw [BitVec.ushiftRight_and_distrib]
    exact BitVec.and_zero

/-- Settles O40: the two branches of `State.writeCtrl`; what CTRL then reads is `ctrlWord_eq_and`. -/
theorem controlRegisterFields : Obligations.ControlRegisterFields := by
  intro s v
  have hwrite : s.memWrite 0x008 v = .next (s.writeCtrl v) := rfl
  rw [hwrite]
  refine ⟨fun hset => ⟨congrArg _ (writeCtrl_of_softReset hset s), rfl⟩, fun hclear => ⟨_, rfl, ?_, ?_⟩⟩
  · rw [State.writeCtrl, if_neg (by rw [hclear]; decide)]
    exact ctrlWord_eq_and rfl rfl rfl
  · rw [State.writeCtrl, if_neg (by rw [hclear]; decide)]

/-- Settles O59: a register read is `memRead_register`; `ctrlWord_bits` and `statusWord_bits` name the bits of CTRL and
STATUS, and the other registers read their fields. -/
theorem registerReadsReturnTheRegister : Obligations.RegisterReadsReturnTheRegister := by
  intro s
  obtain ⟨hieDone, hieErr, hentSel, hctrl⟩ := ctrlWord_bits s
  obtain ⟨hbusy, hdone, herr, hcfg, hwait, hstatus⟩ := statusWord_bits s
  exact ⟨fun off hreg _ => memRead_register s hreg, fun off hreg h4 rest hnext => step_readReg hnext hreg h4, rfl, rfl,
    hieDone, hieErr, hentSel, hctrl, hbusy, hdone, herr, hcfg, hwait, hstatus, rfl,
    BitVec.toNat_setWidth_of_le (by decide), rfl, rfl, rfl, BitVec.toNat_setWidth_of_le (by decide), rfl, rfl,
    BitVec.toNat_setWidth_of_le (by decide), rfl, rfl, rfl⟩

end Sys2Proof.Machine

/-! Completion (R60): a command without entropy is complete in the sequencer's first step, and a sampler that finds N words in
its FIFO in N + 1 steps. -/

namespace Sys2Proof.Machine

/-! ### Commands without entropy -/

/-- What a command that is complete leaves behind: SEQ is Idle, DONE is set, CMD and ERR are kept, and the first n words of the
destination are written. -/
structure Completed (s t : State) (i : Instr) (n : Nat) : Prop where
  seq : t.seq = .idle
  done : t.done = true
  cmd : t.cmd = s.cmd
  err : t.err = s.err
  written : ∀ rd, destination? i = some rd → ∀ k < n, t.bankWord? rd k ≠ none

theorem completed_commit {s : State} {i : Instr} {rd : BankIx} {ws : List Word} {n : Nat} (hdest : destination? i = some rd)
    (hlen : ws.length = n) : Completed s (s.commit rd ws) i n where
  seq := rfl
  done := rfl
  cmd := rfl
  err := rfl
  written rd' hrd k hk := by
    obtain rfl : rd = rd' := Option.some.inj (hdest.symm.trans hrd)
    rw [commit_holds s rd ws k (hlen ▸ hk)]
    exact Option.some_ne_none _

/-- A running command without entropy completes in one step when its sources are written. -/
theorem exec_completes {s : State} {i : Instr} {snap : Snapshot} {prog : Progress} (hrun : s.seq = .run i snap prog)
    (hsampler : isSampler i = false) (hsources : ∀ f ∈ sources i, ∀ k < snap.n.toNat, s.bankWord? f k ≠ none) :
    ∃ t, exec i s = .next t ∧ Completed s t i snap.n.toNat := by
  by_cases hnop : i = .nop
  · subst hnop
    exact ⟨_, exec_run_nop hrun, rfl, rfl, rfl, rfl, nofun⟩
  · rcases exec_run_commit hrun hsampler hnop with ⟨rd, a, b, hdest, ha, hb, hexec⟩ | ⟨⟨f, hf, k, hk, hword⟩, -⟩
    · exact ⟨_, hexec, completed_commit hdest (length_result i snap a b hsampler hnop ha hb)⟩
    · exact absurd hword (hsources f hf k hk)

/-- The configuration check of a command without entropy is the ring's, and NOP has none. -/
theorem cfgOk_of_ringValid {s : State} {i : Instr} (hsampler : isSampler i = false)
    (hring : i ≠ .nop → RingValid s.build s.cfgN s.cfgQ) : cfgOk i s = true := by
  cases i with
  | nop => rfl
  | gsmp | gcdt | unif => cases hsampler
  | _ => exact (cfgValid_iff s).2 (hring nofun)

/-- On an idle block the write of a command that passes the checks of R120 is its acceptance. -/
theorem writeCmd_encode {s : State} {i : Instr} (hidle : s.seq = .idle) (hcfg : cfgOk i s = true)
    (hbanks : i.wf s.build.nb = true) : s.writeCmd (encode i) = .next (s.accept i) := by
  rw [writeCmd_of_ok hidle (decode_encode i), hcfg, submit_of_fits ((wf_iff i _).1 hbanks)]

/-- Settles O48: the first step is `writeCmd_encode`, the second `exec_completes`. -/
theorem arithmeticCommandsCompleteInTwoSteps : Obligations.ArithmeticCommandsCompleteInTwoSteps := by
  intro s i hidle hsampler hbanks hring hsources hnext
  have haccept := (step_writeCmd hnext).trans
    (writeCmd_encode (s := { s with inputs := [] }) hidle (cfgOk_of_ringValid hsampler hring) hbanks)
  have hrun : (State.accept { s with inputs := [] } i).seq = .run i s.snapshot Progress.start := rfl
  obtain ⟨t, hexec, hcompleted⟩ := exec_completes hrun hsampler hsources
  have hcomplete := ((step_nil rfl).trans (sequencerStep_run hrun)).trans hexec
  exact ⟨t, (runSteps_of_step 1 haccept).trans (runSteps_of_step 0 hcomplete), hcompleted.seq, hcompleted.done,
    hcompleted.cmd, hcompleted.err, hcompleted.written⟩

/-! ### The sampler's step -/

section
variable {s s' : State} {i : Instr} {rd : BankIx} {snap : Snapshot} {prog : Progress}

theorem sequencerStep_sampler (hrun : s.seq = .run i snap prog) (hsampler : isSampler i = true)
    (hdest : destination? i = some rd) : s.sequencerStep = s.samplerStep i rd snap prog (drawOf i s snap prog) := by
  obtain ⟨rd', hdest', hexec⟩ := exec_run_sampler hrun hsampler
  obtain rfl : rd = rd' := Option.some.inj (hdest.symm.trans hdest')
  rw [sequencerStep_run hrun, hexec]

/-- A Draw reads nothing of the state but the used thresholds. -/
theorem drawOf_congr (htable : s'.cdt? snap.cdtLen.toNat = s.cdt? snap.cdtLen.toNat) :
    drawOf i s' snap prog = drawOf i s snap prog := by
  cases i with
  | gcdt => funext u; simp only [drawOf, State.gcdtDraw, htable]
  | _ => rfl

/-- A sampler that holds more than N coefficients, which no run reaches, has no step (log entry 16). -/
theorem samplerStep_of_over {draw : Word → Option Progress} (h : snap.n.toNat < prog.scratch.length) :
    s.samplerStep i rd snap prog draw = .next s := by
  simp [State.samplerStep, h.not_gt, h.ne']

end

/-! ### Samplers that make one coefficient of each word -/

/-- The state in which a sampler has this progress and this FIFO. -/
def State.drawnTo (s : State) (i : Instr) (snap : Snapshot) (prog : Progress) (fifo : List Word) : State :=
  { s with fifo := fifo, seq := .run i snap prog }

section
variable {s : State} {i : Instr} {rd : BankIx} {snap : Snapshot} {value : Word → Word} {pending : Option Word}

section
variable (hsampler : isSampler i = true) (hdest : destination? i = some rd) (hinputs : s.inputs = [])
include hsampler hdest hinputs

/-- While no other move is listed a sampler takes its next step. -/
theorem step_drawnTo (prog : Progress) (fifo : List Word) :
    step (s.drawnTo i snap prog fifo) =
      (s.drawnTo i snap prog fifo).samplerStep i rd snap prog (drawOf i s snap prog) := by
  rw [step_nil (s := s.drawnTo i snap prog fifo) hinputs, sequencerStep_sampler rfl hsampler hdest,
    drawOf_congr (s := s) (s' := s.drawnTo i snap prog fifo) rfl]

/-- A sampler whose next word is in the FIFO takes it in one step. -/
theorem step_draws {prog prog' : Progress} {z : Word} {rest : List Word} (hsel : snap.entSel = false)
    (hmore : prog.scratch.length < snap.n.toNat) (hdraw : drawOf i s snap prog z = some prog') :
    step (s.drawnTo i snap prog (z :: rest)) = .next (s.drawnTo i snap prog' rest) := by
  have hoffer : (s.drawnTo i snap prog (z :: rest)).offered snap.entSel = some z := by rw [hsel]; rfl
  rw [step_drawnTo hsampler hdest hinputs, samplerStep_draw hmore hoffer hdraw, hsel]
  rfl

/-- A sampler with all its coefficients commits them in one step. -/
theorem step_commits {prog : Progress} {rest : List Word} (hfull : prog.scratch.length = snap.n.toNat) :
    step (s.drawnTo i snap prog rest) = .next (State.commit { s with fifo := rest } rd prog.scratch) := by
  rw [step_drawnTo hsampler hdest hinputs, samplerStep_commit hfull]
  rfl

/-- A sampler that makes one coefficient of each word commits the missing ones after one Draw each, and leaves the words after
them in the FIFO. -/
theorem runSteps_draws (hsel : snap.entSel = false)
    (hdraw : ∀ scratch z, drawOf i s snap { scratch, pending } z = some { scratch := scratch ++ [value z], pending })
    (zs rest : List Word) (scratch : List Word) (hlen : scratch.length + zs.length = snap.n.toNat) :
    runSteps (zs.length + 1) (s.drawnTo i snap { scratch, pending } (zs ++ rest)) =
      .next (State.commit { s with fifo := rest } rd (scratch ++ zs.map value)) := by
  induction zs generalizing scratch with
  | nil =>
    rw [List.map_nil, List.append_nil]
    exact runSteps_of_step 0 (step_commits hsampler hdest hinputs hlen)
  | cons z zs ih =>
    rw [List.length_cons] at hlen
    have hmore : scratch.length < snap.n.toNat := by omega
    have hlen' : (scratch ++ [value z]).length + zs.length = snap.n.toNat := by
      rw [List.length_append, List.length_singleton]
      omega
    calc
      runSteps (zs.length + 1 + 1) (s.drawnTo i snap { scratch, pending } (z :: (zs ++ rest)))
        = runSteps (zs.length + 1) (s.drawnTo i snap { scratch := scratch ++ [value z], pending } (zs ++ rest)) :=
          runSteps_of_step _ (step_draws hsampler hdest hinputs hsel hmore (hdraw scratch z))
      _ = .next (State.commit { s with fifo := rest } rd (scratch ++ [value z] ++ zs.map value)) := ih _ hlen'
      _ = .next (State.commit { s with fifo := rest } rd (scratch ++ (z :: zs).map value)) := by
          rw [List.append_assoc, List.singleton_append, List.map_cons]

end

/-- A sampler that has just been accepted and has its N words in the FIFO fills its bank with their coefficients. -/
theorem commitsTo_of_fifo {zs rest : List Word} (hsampler : isSampler i = true) (hdest : destination? i = some rd)
    (hrun : s.seq = .run i snap Progress.start) (hinputs : s.inputs = []) (hsel : snap.entSel = false)
    (hfifo : s.fifo = zs ++ rest) (hlen : zs.length = snap.n.toNat)
    (hdraw : ∀ scratch z, drawOf i s snap { scratch, pending := none } z =
      some { scratch := scratch ++ [value z], pending := none }) :
    State.CommitsTo { s with fifo := rest } rd snap.n.toNat (fun k => value (zs.getD k 0))
      (runSteps (snap.n.toNat + 1) s) := by
  have hstart : s = s.drawnTo i snap Progress.start (zs ++ rest) := by
    rw [State.drawnTo, ← hfifo, ← hrun]
  rw [hstart, ← hlen]
  rw [show Progress.start = { scratch := [], pending := none } from rfl,
    runSteps_draws hsampler hdest hinputs hsel hdraw zs rest [] (by rw [List.length_nil, Nat.zero_add, hlen])]
  refine commitsTo_commit _ rd _ _ _ (List.length_map ..) fun k hk => ?_
  have hk' : k < zs.length := by simpa using hk
  simp [hk']

end

/-- Settles O49: `commitsTo_of_fifo`, with the sample of R183 as the coefficient of each word. -/
theorem gsmpFillsTheBankFromTheFifo : Obligations.GsmpFillsTheBankFromTheFifo :=
  fun _ _ snap _ _ hrun hinputs hsel hfifo hlen =>
    commitsTo_of_fifo (value := gsmpValue snap) rfl rfl hrun hinputs hsel hfifo hlen fun _ _ => rfl

/-- Settles O50: `commitsTo_of_fifo`, with the count of R190 as the coefficient of each word. -/
theorem gcdtFillsTheBankFromTheFifo : Obligations.GcdtFillsTheBankFromTheFifo :=
  fun _ _ _ _ _ _ hrun hinputs hsel hfifo hlen hwritten =>
    commitsTo_of_fifo rfl rfl hrun hinputs hsel hfifo hlen fun _ z => gcdtDraw_of_written hwritten z

end Sys2Proof.Machine

/-! The samplers' determinism (R197): what a sampler produces depends on its snapshot, its thresholds and its entropy alone. -/

namespace Sys2Proof.Machine

/-- The thresholds read alike in two states when each of them does. -/
theorem cdt?_congr {s s' : State} {l : Nat}
    (h : ∀ j < l, s'.ram.word? (0x100 + 4 * j) = s.ram.word? (0x100 + 4 * j)) : s'.cdt? l = s.cdt? l := by
  have htable : ∀ j < l, s'.ram.word? (cdtOffsetOf 0 + 4 * j) = s.ram.word? (cdtOffsetOf 0 + 4 * j) := h
  ext1 ws
  rw [State.cdt?, State.cdt?, words?_eq_some_iff, words?_eq_some_iff]
  refine and_congr_right fun hlen => forall_congr' fun k => forall_congr' fun hk => ?_
  rw [htable k (hlen ▸ hk)]

/-- Two states of one sampler's run that agree on what the sampler can see: on SEQ, the entropy and the schedule, while it runs
on the used thresholds, and once it has completed on the words of its destination. -/
structure SamplerAgrees (i : Instr) (rd : BankIx) (snap : Snapshot) (s s' : State) : Prop where
  seq : s'.seq = s.seq
  fifo : s'.fifo = s.fifo
  entPort : s'.entPort = s.entPort
  inputs : s'.inputs = s.inputs
  moves : ∀ e ∈ s.inputs, e = .sequencer ∨ ∃ o, e = .entropy o
  phase : (∃ prog, s.seq = .run i snap prog ∧ s'.cdt? snap.cdtLen.toNat = s.cdt? snap.cdtLen.toNat) ∨
    (s.seq = .idle ∧ ∀ k < snap.n.toNat, s'.bankWord? rd k = s.bankWord? rd k ∧ s.bankWord? rd k ≠ none)

section
variable {i : Instr} {rd : BankIx} {snap : Snapshot} {s s' t : State}

namespace SamplerAgrees

theorem offered (h : SamplerAgrees i rd snap s s') (sel : Bool) : s'.offered sel = s.offered sel := by
  rw [State.offered, State.offered, h.fifo, h.entPort]

/-- Taking the next move off both schedules keeps the agreement. -/
theorem pop (h : SamplerAgrees i rd snap s s') : SamplerAgrees i rd snap s.pop s'.pop :=
  { h with
    inputs := congrArg List.tail h.inputs
    moves := fun e he => h.moves e (List.mem_of_mem_tail he) }

/-- The same Draw in both states keeps the agreement. -/
theorem draw (h : SamplerAgrees i rd snap s s') (htable : s'.cdt? snap.cdtLen.toNat = s.cdt? snap.cdtLen.toNat)
    (prog : Progress) :
    SamplerAgrees i rd snap { s.taken snap.entSel with seq := .run i snap prog }
      { s'.taken snap.entSel with seq := .run i snap prog } where
  seq := rfl
  fifo := by simp [h.fifo]
  entPort := by simp [h.entPort]
  inputs := by simp [h.inputs]
  moves := by simpa using h.moves
  phase := .inl ⟨prog, rfl, by simpa [State.cdt?] using htable⟩

/-- The same commit in both states writes the same words, wherever each build has the bank. -/
theorem commit (h : SamplerAgrees i rd snap s s') {ws : List Word} (hlen : ws.length = snap.n.toNat) :
    SamplerAgrees i rd snap (s.commit rd ws) (s'.commit rd ws) where
  seq := rfl
  fifo := h.fifo
  entPort := h.entPort
  inputs := h.inputs
  moves := h.moves
  phase := by
    refine .inr ⟨rfl, fun k hk => ?_⟩
    have hk' : k < ws.length := hlen ▸ hk
    rw [commit_holds s rd ws k hk', commit_holds s' rd ws k hk']
    exact ⟨rfl, Option.some_ne_none _⟩

/-- The sequencer's move keeps the agreement. -/
theorem sequencerStep (h : SamplerAgrees i rd snap s s') (hsampler : isSampler i = true)
    (hdest : destination? i = some rd) (hnext : s.sequencerStep = .next t) :
    ∃ t', s'.sequencerStep = .next t' ∧ SamplerAgrees i rd snap t t' := by
  rcases h.phase with ⟨prog, hrun, htable⟩ | ⟨hidle, -⟩
  · rw [sequencerStep_sampler hrun hsampler hdest] at hnext
    rw [sequencerStep_sampler (h.seq.trans hrun) hsampler hdest, drawOf_congr htable]
    rcases samplerStep_cases s i rd snap prog (drawOf i s snap prog) with
      ⟨⟨hmore, hnone⟩, hstep⟩ | ⟨u, prog', hmore, hoffer, hdraw, hstep⟩ | ⟨_, -, -, -, hstep⟩ | ⟨hfull, hstep⟩ |
      ⟨hover, hstep⟩ <;> rw [hstep] at hnext <;> cases hnext
    · exact ⟨s', samplerStep_wait ⟨hmore, (h.offered _).trans hnone⟩, h⟩
    · exact ⟨_, samplerStep_draw hmore ((h.offered _).trans hoffer) hdraw, h.draw htable prog'⟩
    · exact ⟨_, samplerStep_commit hfull, h.commit hfull⟩
    · exact ⟨s', samplerStep_of_over hover, h⟩
  · rw [sequencerStep_idle hidle] at hnext
    cases hnext
    exact ⟨s', sequencerStep_idle (h.seq.trans hidle), h⟩

/-- A step of the schedule keeps the agreement. -/
theorem step (h : SamplerAgrees i rd snap s s') (hsampler : isSampler i = true) (hdest : destination? i = some rd)
    (hnext : Machine.step s = .next t) : ∃ t', Machine.step s' = .next t' ∧ SamplerAgrees i rd snap t t' := by
  cases hinputs : s.inputs with
  | nil =>
    rw [step_nil hinputs] at hnext
    rw [step_nil (h.inputs.trans hinputs)]
    exact h.sequencerStep hsampler hdest hnext
  | cons e rest =>
    have hpop := h.pop
    simp only [State.pop, h.inputs, hinputs, List.tail_cons] at hpop
    rw [step_cons hinputs] at hnext
    rw [step_cons (h.inputs.trans hinputs)]
    rcases h.moves e (hinputs ▸ List.mem_cons_self) with rfl | ⟨o, rfl⟩
    · exact hpop.sequencerStep hsampler hdest hnext
    · cases hnext
      exact ⟨_, rfl, { hpop with entPort := rfl }⟩

theorem runSteps (h : SamplerAgrees i rd snap s s') (hsampler : isSampler i = true) (hdest : destination? i = some rd)
    (m : Nat) (hnext : Machine.runSteps m s = .next t) :
    ∃ t', Machine.runSteps m s' = .next t' ∧ SamplerAgrees i rd snap t t' := by
  induction m generalizing s s' with
  | zero =>
    cases hnext
    exact ⟨s', rfl, h⟩
  | succ m ih =>
    obtain ⟨s₁, hfirst, hrest⟩ := step_of_runSteps hnext
    obtain ⟨s₁', hfirst', h₁⟩ := h.step hsampler hdest hfirst
    rw [runSteps_of_step m hfirst']
    exact ih h₁ hrest

end SamplerAgrees

end

/-- Settles O51: the two states agree at the start, and `SamplerAgrees.runSteps` keeps the agreement. -/
theorem samplersAreDeterminedByTheirEntropy : Obligations.SamplersAreDeterminedByTheirEntropy := by
  intro s s' t i snap prog rd m hsampler hdest hrun hseq hfifo hport hinputs hmoves htable hnext
  have hstart : SamplerAgrees i rd snap s s' :=
    ⟨hseq, hfifo, hport, hinputs, hmoves, .inl ⟨prog, hrun, cdt?_congr htable⟩⟩
  obtain ⟨t', hnext', hend⟩ := hstart.runSteps hsampler hdest m hnext
  refine ⟨t', hnext', hend.seq, hend.fifo, hend.entPort, fun hidle => ?_⟩
  rcases hend.phase with ⟨_, hstill, -⟩ | ⟨-, hresult⟩
  · rw [hidle] at hstill
    cases hstill
  · exact hresult

end Sys2Proof.Machine
